-- ==== Sys2Proof/Word.lean ====
section
/-! DEFINITION. The bit widths of the DEMO2 frame codec (10_state.md R22, R46: every value is an unsigned
integer of 1, 8, 16 or 32 bits). Byte-order and bit-field helpers are in Machine/Operands.lean. -/

namespace Sys2Proof

/-- An unsigned 8-bit value (00_scope.md R11). -/
abbrev Byte := BitVec 8

/-- A 16-bit value: the CRC and its accumulator (00_scope.md R8, CRC_WIDTH). -/
abbrev Half := BitVec 16

/-- A 32-bit value: a counter or a register's contents (00_scope.md R9, COUNTER_WIDTH; 10_state.md R32). -/
abbrev Word := BitVec 32

/-- An 8-bit key number (00_scope.md R10). -/
abbrev KeyIndex := BitVec 8

end Sys2Proof
end

