-- ==== Sys2Proof/Syntax.lean ====
section
/-! DEFINITION. The instructions: one constructor per row of spec/opcode_table.json. The first fifteen are the
operations of 30_encoding.md R76, `illegal` is the row for the 241 unassigned opcodes (R78), and the last three are
the wire-frame rows (R82 to R84). Operands are bytes in the order of the encoding. -/

namespace Sys2Proof

/-- One instruction, as syntax. -/
inductive Instr where
  /-- 0x00 NOP (44_control.md R190). -/
  | nop
  /-- 0x10 CRC.INIT (40_crc.md R102). -/
  | crcInit
  /-- 0x11 CRC.BYTE b (40_crc.md R103). -/
  | crcByte (b : Byte)
  /-- 0x12 CRC.READ (40_crc.md R104). -/
  | crcRead
  /-- 0x20 ENC mod, sel, d1, d2, d3 (41_tx.md R121). -/
  | enc (mod sel d1 d2 d3 : Byte)
  /-- 0x21 SETLED led, color (41_tx.md R122). -/
  | setled (led color : Byte)
  /-- 0x22 SETBUZ on (41_tx.md R123). -/
  | setbuz (on : Byte)
  /-- 0x30 RX.BYTE b (42_rx.md R144). -/
  | rxByte (b : Byte)
  /-- 0x31 LINK.UP (42_rx.md R146). -/
  | linkUp
  /-- 0x32 LINK.DOWN (42_rx.md R147). -/
  | linkDown
  /-- 0x40 DEC b0 to b8 (43_decode.md R171). -/
  | dec (b0 b1 b2 b3 b4 b5 b6 b7 b8 : Byte)
  /-- 0x41 KEYDEC mod, sel, d1, d2, d3 (43_decode.md R175). -/
  | keydec (mod sel d1 d2 d3 : Byte)
  /-- 0x50 REG.READ idx (44_control.md R191). -/
  | regRead (idx : Byte)
  /-- 0x51 REG.WRITE idx, v3 v2 v1 v0, the value high byte first (44_control.md R192). -/
  | regWrite (idx v3 v2 v1 v0 : Byte)
  /-- 0x52 CNT.CLEAR (44_control.md R195). -/
  | cntClear
  /-- An unassigned opcode `op`, one byte long (30_encoding.md R78, 44_control.md R196). -/
  | illegal (op : Byte)
  /-- A SetLed command frame on the wire: `a` LED address, `c` colour, `h` CRC_HI, `l` CRC_LO (30_encoding.md
  R82). -/
  | frameSetled (a c h l : Byte)
  /-- A SetBuzzer command frame on the wire: `o` is 1 for on, `h` CRC_HI, `l` CRC_LO (30_encoding.md R83). -/
  | frameSetbuzzer (o : BitVec 1) (h l : Byte)
  /-- A keypad report frame on the wire: `d` is 1 for down, `s` the scan code, `x` DATA3, `h` CRC_HI, `l` CRC_LO
  (30_encoding.md R84). -/
  | frameKeypadReport (d : BitVec 1) (s x h l : Byte)
  deriving DecidableEq, Repr

/-- Is the instruction one of the three wire-frame rows (FRAME72 in the table), not an operation of R76 or R78? -/
def Instr.isFrame : Instr → Bool
  | .frameSetled _ _ _ _ | .frameSetbuzzer _ _ _ | .frameKeypadReport _ _ _ _ _ => true
  | .nop | .crcInit | .crcByte _ | .crcRead | .enc _ _ _ _ _ | .setled _ _ | .setbuz _ | .rxByte _ | .linkUp
  | .linkDown | .dec _ _ _ _ _ _ _ _ _ | .keydec _ _ _ _ _ | .regRead _ | .regWrite _ _ _ _ _ | .cntClear
  | .illegal _ => false

end Sys2Proof
end

