-- ==== Sys2Proof/Machine/State.lean ====
section
/-! DEFINITION. The state as plain data. `Codec` is the block's own state, exactly the twelve fields of 10_state.md
R22. `State` puts around it what drives and observes it: the input ports with what waits on them, the order in which
they are served, and the result records returned. -/

namespace Sys2Proof.Machine

/-- A payload: bytes 1 to 5 of a frame (00_scope.md R13). -/
structure Payload where
  mod : Byte
  sel : Byte
  d1 : Byte
  d2 : Byte
  d3 : Byte
  deriving DecidableEq, Repr

/-- A key transition: key number and whether it went down (10_state.md R22, `key_events`). -/
structure KeyEvent where
  key : KeyIndex
  isDown : Bool
  deriving DecidableEq, Repr

/-- The block's state, and nothing else (10_state.md R22). -/
structure Codec where
  /-- `rxbuf`: received bytes not yet consumed or discarded, oldest first (R23). -/
  rxbuf : List Byte
  /-- `link_up` (R24). -/
  linkUp : Bool
  /-- `crc_acc`: the standalone CRC generator's accumulator (R25). -/
  crcAcc : Half
  /-- `key_mod` (R26). -/
  keyMod : Byte
  /-- `key_sel` (R26). -/
  keySel : Byte
  /-- `cnt_frames_ok` (R33). -/
  cntFramesOk : Word
  /-- `cnt_crc_err` (R34). -/
  cntCrcErr : Word
  /-- `cnt_sync_drop` (R35). -/
  cntSyncDrop : Word
  /-- `cnt_tx_dropped` (R36). -/
  cntTxDropped : Word
  /-- `tx_stream`: bytes handed to the transport, oldest first (R28). -/
  txStream : List Byte
  /-- `rx_frames`: payloads handed to the host, oldest first (R28). -/
  rxFrames : List Payload
  /-- `key_events`: key transitions handed to the host, oldest first (R28). -/
  keyEvents : List KeyEvent
  deriving DecidableEq, Repr

/-- The status of a result record (60_exceptions.md R211); its byte is `Status.code`. -/
inductive Status where
  | ok
  | eNotConnected
  | eBadStx
  | eBadEtx
  | eCrc
  | nNotKeypad
  | nBadState
  | nUnmapped
  | eIllegalOp
  | eBadReg
  | eRoReg
  deriving DecidableEq, Repr

/-- The event of a result record (30_encoding.md R81); its byte is `Event.code`. -/
inductive Event where
  | none
  | frame
  | crcDrop
  | syncDrop
  deriving DecidableEq, Repr

/-- A result record (30_encoding.md R80). -/
structure Result where
  status : Status
  event : Event
  data : List Byte
  deriving DecidableEq, Repr

/-- The two input ports (30_encoding.md R72). -/
inductive Port where
  /-- The host command port. -/
  | host
  /-- The link port, driven by the transport. -/
  | link
  deriving DecidableEq, Repr

/-- A result record with the port it is returned to (30_encoding.md R72). -/
structure Returned where
  port : Port
  result : Result
  deriving DecidableEq, Repr

/-- Whose input the block takes next (log entries 2 and 3). -/
inductive Turn where
  /-- The operation at the front of the host command port. -/
  | host
  /-- The operation at the front of the link port. -/
  | link
  /-- The transport delivers what it has received from the wire, as RX.BYTE operations on the link port. -/
  | wire
  /-- The reset input (70_reset_and_hazards.md R240). -/
  | reset
  deriving DecidableEq, Repr

/-- The machine's state: the block, and around it the ports, their schedule and the returned results. -/
structure State where
  /-- The block's own state (10_state.md R22). -/
  codec : Codec
  /-- The order in which the inputs are taken from here on, next one first. It is data no rule fixes, so a claim about
  every state is a claim about every interleaving (60_exceptions.md R219). -/
  turns : List Turn
  /-- Operation bytes waiting on the host command port, oldest first (30_encoding.md R72, R73). -/
  hostIn : List Byte
  /-- Operation bytes waiting on the link port, oldest first (30_encoding.md R72, R73). -/
  linkIn : List Byte
  /-- Bytes the transport has received from the wire and not yet delivered, oldest first (20_memory.md R50). -/
  wireIn : List Byte
  /-- The port that delivered the operation being performed (30_encoding.md R72). -/
  port : Port
  /-- The result records returned so far, oldest first. No operation reads them (10_state.md R29; log entry 1). -/
  results : List Returned
  deriving DecidableEq, Repr

/-- What stops the machine with a fault: nothing. The block has no trap, and no status leaves it stuck
(60_exceptions.md R210, R216). -/
inductive Fault where
  deriving DecidableEq, Repr

/-- Why a step gives no meaning. -/
inductive Refusal where
  /-- Raised by an arm of `exec` whose instruction has no meaning yet. Safe. No arm raises it. -/
  | notModelled (mnemonic : String)
  /-- Raised by `step` when a port's bytes end inside the operation that `op` begins (30_encoding.md R79: refuse it by
  name; 93_implementation_defined.md I8). The ports never deliver such bytes. Safe. -/
  | truncatedOperation (op : Byte)
  deriving DecidableEq, Repr

/-- What the turn at the front of the schedule brings. -/
inductive Fetched where
  /-- No operation is performed in this turn; the state after it. -/
  | quiet (s : State)
  /-- The operation to perform, and the state to perform it in. -/
  | run (i : Instr) (s : State)
  /-- The port holds a partial operation (30_encoding.md R79). -/
  | refuse (r : Refusal)
  deriving DecidableEq, Repr

/-- The block right after reset (10_state.md R44). -/
def Codec.reset : Codec where
  rxbuf := []
  linkUp := false
  crcAcc := 0xFFFF#16
  keyMod := 0x10#8
  keySel := 0x3D#8
  cntFramesOk := 0#32
  cntCrcErr := 0#32
  cntSyncDrop := 0#32
  cntTxDropped := 0#32
  txStream := []
  rxFrames := []
  keyEvents := []

/-- The machine right after reset: the block as 10_state.md R44 says, nothing waiting, nothing returned. `port` is
written before every operation, so its value here is never read (log entry 8). -/
def State.reset : State where
  codec := Codec.reset
  turns := []
  hostIn := []
  linkIn := []
  wireIn := []
  port := .host
  results := []

end Sys2Proof.Machine
end

