-- ==== Sys2Proof/Machine/Flags.lean ====
section
/-! DEFINITION. The block has no condition codes (10_state.md R31). Its outcomes are the status and event codes of the
result record, given here as the bytes of 60_exceptions.md R211 and 30_encoding.md R81, and the one stored status
bit, which the STATUS register shows (10_state.md R38). -/

namespace Sys2Proof.Machine

/-- The status byte (60_exceptions.md R211). -/
def Status.code : Status → Byte
  | .ok => 0x00#8
  | .eNotConnected => 0x01#8
  | .eBadStx => 0x02#8
  | .eBadEtx => 0x03#8
  | .eCrc => 0x04#8
  | .nNotKeypad => 0x05#8
  | .nBadState => 0x06#8
  | .nUnmapped => 0x07#8
  | .eIllegalOp => 0x08#8
  | .eBadReg => 0x09#8
  | .eRoReg => 0x0A#8

/-- The event byte (30_encoding.md R81). -/
def Event.code : Event → Byte
  | .none => 0x00#8
  | .frame => 0x01#8
  | .crcDrop => 0x02#8
  | .syncDrop => 0x03#8

/-- The STATUS register's value: `zext_32(len(rxbuf)[3:0] ‖ link_up)` (10_state.md R38, 44_control.md R191). -/
def statusValue (c : Codec) : Word :=
  (BitVec.ofNat 4 c.rxbuf.length ++ BitVec.ofBool c.linkUp).setWidth 32

end Sys2Proof.Machine
end

