-- ==== Sys2Proof/Machine/Operands.lean ====
section
/-! DEFINITION. Operand forms, byte order and the slice notation of 00_scope.md R11. Every multi-byte value is high
byte first (20_memory.md R51), and no operand is sign-extended, scaled or shifted (30_encoding.md R74). -/

namespace Sys2Proof.Machine

/-- `s[i]` of 00_scope.md R11. The rules index a byte sequence only inside its length; past the end this reads 0,
which no rule uses. -/
def byteAt (s : List Byte) (i : Nat) : Byte := s.getD i 0#8

/-- `s[i..j)` of 00_scope.md R11. -/
def slice (s : List Byte) (i j : Nat) : List Byte := (s.drop i).take (j - i)

/-- `v.hi`, which is `v[15:8]` (00_scope.md R11). -/
def hi (v : Half) : Byte := v.extractLsb' 8 8

/-- `v.lo`, which is `v[7:0]` (00_scope.md R11). -/
def lo (v : Half) : Byte := v.extractLsb' 0 8

/-- A 16-bit value as bytes, high byte first (20_memory.md R51). -/
def bytes16 (v : Half) : List Byte := [hi v, lo v]

/-- A 32-bit value as bytes, high byte first (20_memory.md R51). -/
def bytes32 (v : Word) : List Byte :=
  [v.extractLsb' 24 8, v.extractLsb' 16 8, v.extractLsb' 8 8, v.extractLsb' 0 8]

/-- REG.WRITE's operand: `v3·2^24 + v2·2^16 + v1·2^8 + v0` (30_encoding.md R74). -/
def word32 (v3 v2 v1 v0 : Byte) : Word := v3 ++ v2 ++ v1 ++ v0

/-- SETBUZ's operand read as a truth value: on when it is not 0x00 (30_encoding.md R75). -/
def isOn (a0 : Byte) : Bool := a0 != 0x00#8

/-- A 1-bit value as a byte, 0x00 or 0x01 (30_encoding.md R80, `is_down`). -/
def bitByte (b : Bool) : Byte := if b then 0x01#8 else 0x00#8

/-- The index of the first byte of `s` that is `b`, if there is one: "least i with B[i] = 0x02" (42_rx.md R144). -/
def firstIndex (b : Byte) : List Byte → Option Nat
  | [] => none
  | x :: xs => if x = b then some 0 else (firstIndex b xs).map (· + 1)

end Sys2Proof.Machine
end

