-- ==== Sys2Proof/Machine/Ops.lean ====
section
/-! DEFINITION. The named operations over the state: the pseudocode primitives of 00_scope.md R12, the counter
increments of 10_state.md R27, performing an operation, and the reset input. The block has no trap, so there is no
exception entry and no return (60_exceptions.md R210, R220): an operation that meets an error completes and says so in
its result record, which is `State.perform` like any other. -/

namespace Sys2Proof.Machine

/-- A result record with no event: `result(status, EV_NONE, data)` (00_scope.md R12, 30_encoding.md R80). -/
def report (st : Status) (data : List Byte) : Result := ⟨st, .none, data⟩

namespace Codec

/-- `rxbuf <- b`. -/
def setRxbuf (c : Codec) (b : List Byte) : Codec := { c with rxbuf := b }

/-- `link_up <- v; rxbuf <- []`: both link events do the two writes in one step (42_rx.md R146, R147). DESIGN CHOICE (log
entry 19), unsafe: done twice in a row it is as done once, though 20_memory.md R58 lists both events as not idempotent. -/
def setLink (c : Codec) (v : Bool) : Codec := { c with linkUp := v, rxbuf := [] }

/-- `crc_acc <- v`. -/
def setCrcAcc (c : Codec) (v : Half) : Codec := { c with crcAcc := v }

/-- `key_mod <- m; key_sel <- s`, in one operation (10_state.md R37). DESIGN CHOICE (log entry 19), unsafe: done twice in a
row it is as done once (44_control.md R192), though 20_memory.md R58 lists REG.WRITE as not idempotent. -/
def setKeyFilter (c : Codec) (m s : Byte) : Codec := { c with keyMod := m, keySel := s }

/-- `emit_tx(s)` (00_scope.md R12). -/
def emitTx (c : Codec) (s : List Byte) : Codec := { c with txStream := c.txStream ++ s }

/-- `emit_frame(p)` (00_scope.md R12). -/
def emitFrame (c : Codec) (p : Payload) : Codec := { c with rxFrames := c.rxFrames ++ [p] }

/-- `emit_key(k, d)` (00_scope.md R12) for each event listed, of which a frame has at most one. -/
def emitKeys (c : Codec) (es : List KeyEvent) : Codec := { c with keyEvents := c.keyEvents ++ es }

/-- `cnt_frames_ok +32 1` (10_state.md R27). -/
def countFrameOk (c : Codec) : Codec := { c with cntFramesOk := c.cntFramesOk + 1#32 }

/-- `cnt_crc_err +32 1` (10_state.md R27). -/
def countCrcErr (c : Codec) : Codec := { c with cntCrcErr := c.cntCrcErr + 1#32 }

/-- `cnt_sync_drop +32 n` (10_state.md R27). -/
def countSyncDrop (c : Codec) (n : Nat) : Codec := { c with cntSyncDrop := c.cntSyncDrop + BitVec.ofNat 32 n }

/-- `cnt_tx_dropped +32 1` (10_state.md R27). -/
def countTxDropped (c : Codec) : Codec := { c with cntTxDropped := c.cntTxDropped + 1#32 }

/-- All four counters to 0 (44_control.md R195). -/
def clearCounters (c : Codec) : Codec :=
  { c with cntFramesOk := 0#32, cntCrcErr := 0#32, cntSyncDrop := 0#32, cntTxDropped := 0#32 }

end Codec

namespace State

/-- The state after an operation that leaves the block as `c` and returns `r` to the port that delivered it
(30_encoding.md R72, R80). -/
def finish (s : State) (c : Codec) (r : Result) : State :=
  { s with codec := c, results := s.results ++ [⟨s.port, r⟩] }

/-- Perform one operation as one indivisible step (20_memory.md R57): `op` says what it does to the block and what it
returns. -/
def perform (s : State) (op : Codec → Codec × Result) : State :=
  s.finish (op s.codec).1 (op s.codec).2

/-- The reset input (70_reset_and_hazards.md R240): every element of the block to its value of 10_state.md R44, and a fresh
observation. What waits on the ports and on the wire belongs to the outside and stays (log entry 7). -/
def resetInput (s : State) : State := { s with codec := Codec.reset, results := [] }

end State

end Sys2Proof.Machine
end

