-- ==== Sys2Proof/Machine/Control.lean ====
section
/-! DEFINITION. Control and registers: NOP, REG.READ, REG.WRITE, CNT.CLEAR and the illegal opcodes (44_control.md R190 to
R196), over the register map of 10_state.md R32 to R40. -/

namespace Sys2Proof.Machine

/-- The value of the register at an index, if there is one (10_state.md R32 to R40, 44_control.md R191). -/
def readReg (c : Codec) (idx : Byte) : Option Word :=
  match idx.toNat with
  | 0x00 => some c.cntFramesOk
  | 0x01 => some c.cntCrcErr
  | 0x02 => some c.cntSyncDrop
  | 0x03 => some c.cntTxDropped
  | 0x04 => some ((c.keyMod ++ c.keySel).setWidth 32)
  | 0x05 => some (statusValue c)
  | 0x06 => some (c.crcAcc.setWidth 32)
  | _ => none

/-- The result record of REG.READ (44_control.md R191). -/
def readResult : Option Word → Result
  | some v => report .ok (bytes32 v)
  | none => report .eBadReg [0x00#8, 0x00#8, 0x00#8, 0x00#8]

/-- A write of `v` to the register at an index (44_control.md R192): only KEY_FILTER takes it, and its bits 31:16 are
ignored. -/
def writeReg (idx : Byte) (v : Word) (c : Codec) : Codec × Result :=
  match idx.toNat with
  | 0x04 => (c.setKeyFilter (v.extractLsb' 8 8) (v.extractLsb' 0 8), report .ok [])
  | 0x00 => (c, report .eRoReg [])
  | 0x01 => (c, report .eRoReg [])
  | 0x02 => (c, report .eRoReg [])
  | 0x03 => (c, report .eRoReg [])
  | 0x05 => (c, report .eRoReg [])
  | 0x06 => (c, report .eRoReg [])
  | _ => (c, report .eBadReg [])

/-- NOP (44_control.md R190). -/
def execNop (s : State) : Host.Outcome State Fault Refusal :=
  .next (s.perform fun c => (c, report .ok []))

/-- REG.READ (44_control.md R191). -/
def execRegRead (idx : Byte) (s : State) : Host.Outcome State Fault Refusal :=
  .next (s.perform fun c => (c, readResult (readReg c idx)))

/-- REG.WRITE (44_control.md R192). -/
def execRegWrite (idx v3 v2 v1 v0 : Byte) (s : State) : Host.Outcome State Fault Refusal :=
  .next (s.perform (writeReg idx (word32 v3 v2 v1 v0)))

/-- CNT.CLEAR (44_control.md R195). -/
def execCntClear (s : State) : Host.Outcome State Fault Refusal :=
  .next (s.perform fun c => (c.clearCounters, report .ok []))

/-- An illegal opcode (44_control.md R196): no state changes, whatever the byte. -/
def execIllegal (_op : Byte) (s : State) : Host.Outcome State Fault Refusal :=
  .next (s.perform fun c => (c, report .eIllegalOp []))

end Sys2Proof.Machine
end

