-- ==== Sys2Proof/Machine/Params.lean ====
section
/-! DEFINITION. The fixed parameters of 00_scope.md R8 and R9: every numeric literal of the source, in one place. -/

namespace Sys2Proof.Machine

/-- STX, the start-of-frame byte (R8). -/
abbrev stx : Byte := 0x02#8
/-- ETX, the end-of-frame byte (R8). -/
abbrev etx : Byte := 0x03#8
/-- FRAME_LEN (R8). -/
abbrev frameLen : Nat := 9
/-- CRC_POLY in reflected form (R8). -/
abbrev crcPoly : Half := 0xA001#16
/-- CRC_INIT (R8). -/
abbrev crcInitValue : Half := 0xFFFF#16
/-- MOD of the SetLed and SetBuzzer command frames (R8; 41_tx.md R122, R123). -/
abbrev cmdMod : Byte := 0x11#8
/-- SEL of the SetLed command frame (R8; 41_tx.md R122). -/
abbrev ledSel : Byte := 0x3A#8
/-- SEL of the SetBuzzer command frame (R8; 41_tx.md R123). -/
abbrev buzSel : Byte := 0x3B#8
/-- MOD of the keypad report in the revision the source names (R8; 30_encoding.md R84). -/
abbrev keypadMod : Byte := 0x10#8
/-- SEL of the keypad report in the revision the source names (R8; 30_encoding.md R84). -/
abbrev keypadSel : Byte := 0x3D#8
/-- DATA1 of a key-down report, and of a SetBuzzer-on command (R8; 41_tx.md R123, 43_decode.md R173). -/
abbrev codeDown : Byte := 0x31#8
/-- DATA1 of a key-up report, and of a SetBuzzer-off command (R8; 41_tx.md R123, 43_decode.md R173). -/
abbrev codeUp : Byte := 0x30#8
/-- The padding byte of command frames (R8). -/
abbrev pad : Byte := 0x20#8

end Sys2Proof.Machine
end

