-- ==== Sys2Proof/Machine/Crc.lean ====
section
/-! DEFINITION. The CRC-16/MODBUS function of 40_crc.md R100. -/

namespace Sys2Proof.Machine

/-- One turn of R100's loop: shift right, and XOR 0xA001 in when the bit shifted out is 1. -/
def crcShift (c : Half) : Half :=
  if c.getLsbD 0 then (c >>> 1) ^^^ crcPoly else c >>> 1

/-- R100's loop, `n` turns of it. -/
def crcShifts : Nat → Half → Half
  | 0, c => c
  | n + 1, c => crcShifts n (crcShift c)

/-- `crc16_update(c, b)` (R100): XOR the byte into the low 8 bits, then 8 turns of the loop. -/
def crc16Update (c : Half) (b : Byte) : Half := crcShifts 8 (c ^^^ b.setWidth 16)

/-- `crc16(s)` (R100): the update folded over `s` from 0xFFFF, first byte first. -/
def crc16 (s : List Byte) : Half := s.foldl crc16Update crcInitValue

/-- `T[i]` of the table-driven form (40_crc.md R105 item a): the 8-turn loop applied to `i`, with no byte XOR. -/
def crcTable (i : Byte) : Half := crcShifts 8 (i.setWidth 16)

end Sys2Proof.Machine
end

