-- ==== Sys2Proof/Machine/CrcGen.lean ====
section
/-! DEFINITION. The standalone CRC generator: CRC.INIT, CRC.BYTE, CRC.READ (40_crc.md R102 to R104). -/

namespace Sys2Proof.Machine

/-- CRC.INIT (40_crc.md R102). -/
def execCrcInit (s : State) : Host.Outcome State Fault Refusal :=
  .next (s.perform fun c => (c.setCrcAcc crcInitValue, report .ok []))

/-- CRC.BYTE (40_crc.md R103). -/
def execCrcByte (b : Byte) (s : State) : Host.Outcome State Fault Refusal :=
  .next (s.perform fun c => (c.setCrcAcc (crc16Update c.crcAcc b), report .ok []))

/-- CRC.READ (40_crc.md R104): the accumulator, high byte first, neither reset nor finalised. -/
def execCrcRead (s : State) : Host.Outcome State Fault Refusal :=
  .next (s.perform fun c => (c, report .ok (bytes16 c.crcAcc)))

end Sys2Proof.Machine
end

