-- ==== Sys2Proof/Config.lean ====
section
/-! DEFINITION. What the spec leaves to the implementation (00_scope.md R10, 10_state.md R30): the scan-code table and
the settle interval. They are parameters of the model, not state, and no operation changes them. Each is built from
constants without a body, so no proof can learn a value of it. -/

namespace Sys2Proof.Config

/-- Free value: which scan codes are the twelve that surely name a key. `scanCodes b` below 12 says that `b` is one
of them (log entry 5). -/
opaque scanCodes : Equiv.Perm Byte

/-- Free value: which key numbers those twelve scan codes name (log entry 5). -/
opaque keyNumbers : Equiv.Perm KeyIndex

/-- Free value: what every other scan code names, if anything (log entry 5). -/
opaque otherScanCodes : Byte → Option KeyIndex

/-- The scan table that three such choices give. Every table whose image holds 12 distinct key numbers has this form,
and every table of this form meets that constraint (Laws/Config.lean). -/
def tableOf (codes : Equiv.Perm Byte) (keys : Equiv.Perm KeyIndex) (other : Byte → Option KeyIndex) (b : Byte) :
    Option KeyIndex :=
  if codes b < 12#8 then some (keys (codes b)) else other b

/-- SCAN_TABLE, the scan-code table (00_scope.md R10, 43_decode.md R177). Its contents are not in the source; the one
constraint on it is that its image holds at least 12 distinct key numbers. -/
def scanTable : Byte → Option KeyIndex := tableOf scanCodes keyNumbers otherScanCodes

/-- Free value: by how many milliseconds the settle interval exceeds the source's lower bound (log entry 6). -/
opaque settleExtraMs : Nat

/-- SETTLE_MIN in milliseconds, at least 10 (00_scope.md R10; 93_implementation_defined.md I6). Timing only: no
operation reads it; `Safety.settleRespected` states the host's duty of 70_reset_and_hazards.md R251 with it. -/
def settleMinMs : Nat := 10 + settleExtraMs

end Sys2Proof.Config
end

