-- ==== Sys2Proof/Machine/Frame.lean ====
section
/-! DEFINITION. Building and checking a frame: pure functions that both directions share (41_tx.md R120, 43_decode.md
R170). A frame is a list of 9 bytes (00_scope.md R13). -/

namespace Sys2Proof.Machine

/-- The five bytes of a payload in index order (20_memory.md R53). -/
def Payload.bytes (p : Payload) : List Byte := [p.mod, p.sel, p.d1, p.d2, p.d3]

/-- The payload of a frame: its bytes 1 to 5 (00_scope.md R13). -/
def payloadOf (f : List Byte) : Payload := ⟨byteAt f 1, byteAt f 2, byteAt f 3, byteAt f 4, byteAt f 5⟩

/-- `frame_encode` (41_tx.md R120, 40_crc.md R101). -/
def frameEncode (p : Payload) : List Byte :=
  let c := crc16 p.bytes
  [stx, p.mod, p.sel, p.d1, p.d2, p.d3, hi c, lo c, etx]

/-- Do bytes 6 and 7 carry the CRC of bytes 1 to 5 (42_rx.md R145, 43_decode.md R170)? -/
def crcRight (f : List Byte) : Bool :=
  let c := crc16 (slice f 1 6)
  byteAt f 6 == hi c && byteAt f 7 == lo c

/-- `frame_check` (43_decode.md R170): STX, then ETX, then the CRC; the first test that fails gives the status. -/
def frameCheck (f : List Byte) : Status :=
  if byteAt f 0 ≠ stx then .eBadStx
  else if byteAt f 8 ≠ etx then .eBadEtx
  else if crcRight f then .ok
  else .eCrc

end Sys2Proof.Machine
end

