-- ==== Sys2Proof/Machine/Keypad.lean ====
section
/-! DEFINITION. The two pure decoders, DEC and KEYDEC, and the key event of a yielded frame (43_decode.md R170 to
R177). -/

namespace Sys2Proof.Machine

/-- `keydec` (43_decode.md R173) with the scan table as an argument (R177): MOD and SEL, then DATA1, then the table. An
`error` is one of the three "none" outcomes (R174). DATA3 is not read. -/
def keydec (table : Byte → Option KeyIndex) (keyMod keySel : Byte) (p : Payload) : Except Status KeyEvent :=
  if p.mod ≠ keyMod ∨ p.sel ≠ keySel then .error .nNotKeypad
  else if p.d1 ≠ codeDown ∧ p.d1 ≠ codeUp then .error .nBadState
  else match table p.d2 with
    | none => .error .nUnmapped
    | some k => .ok ⟨k, p.d1 == codeDown⟩

/-- A key event as result data: `[key_index, is_down]` (30_encoding.md R80). -/
def KeyEvent.bytes (e : KeyEvent) : List Byte := [e.key, bitByte e.isDown]

/-- `keydec` under the block's current filter and its scan table. -/
def Codec.keydec (c : Codec) (p : Payload) : Except Status KeyEvent :=
  Machine.keydec Config.scanTable c.keyMod c.keySel p

/-- `key_event(p)` (43_decode.md R176): a "none" outcome adds nothing. -/
def Codec.keyEvent (c : Codec) (p : Payload) : Codec :=
  c.emitKeys (match c.keydec p with
    | .ok e => [e]
    | .error _ => [])

/-- The result record of KEYDEC (43_decode.md R175). -/
def keydecResult : Except Status KeyEvent → Result
  | .ok e => report .ok e.bytes
  | .error st => report st []

/-- The result record of DEC for the frame `f` (43_decode.md R171). -/
def decResult (f : List Byte) : Result :=
  match frameCheck f with
  | .ok => report .ok (payloadOf f).bytes
  | st => report st []

/-- DEC (43_decode.md R171): no search for STX, no state. -/
def execDec (b0 b1 b2 b3 b4 b5 b6 b7 b8 : Byte) (s : State) : Host.Outcome State Fault Refusal :=
  .next (s.perform fun c => (c, decResult [b0, b1, b2, b3, b4, b5, b6, b7, b8]))

/-- KEYDEC (43_decode.md R175). -/
def execKeydec (mod sel d1 d2 d3 : Byte) (s : State) : Host.Outcome State Fault Refusal :=
  .next (s.perform fun c => (c, keydecResult (c.keydec ⟨mod, sel, d1, d2, d3⟩)))

end Sys2Proof.Machine
end

