-- ==== Sys2Proof/Machine/Rx.lean ====
section
/-! DEFINITION. The receive framer: the source's scanner over a chunk (42_rx.md R140), RX.BYTE (R143 to R145), LINK.UP and
LINK.DOWN (R146, R147). -/

namespace Sys2Proof.Machine

/-- `complete_frame(F)` (42_rx.md R145): yield the payload and its key event, or drop the whole candidate. -/
def completeFrame (c : Codec) (f : List Byte) : Codec × Result :=
  if crcRight f then
    (((c.emitFrame (payloadOf f)).countFrameOk).keyEvent (payloadOf f), ⟨.ok, .frame, (payloadOf f).bytes⟩)
  else (c.countCrcErr, ⟨.ok, .crcDrop, []⟩)

/-- A resync discard of the first `n` bytes of `b`: what is left is the buffer, the bytes are counted and reported
(42_rx.md R144). -/
def syncDrop (c : Codec) (b : List Byte) (n : Nat) : Codec × Result :=
  ((c.setRxbuf (b.drop n)).countSyncDrop n, ⟨.ok, .syncDrop, [BitVec.ofNat 8 n]⟩)

/-- The one decision on a buffer `b` that has reached 9 bytes (42_rx.md R144). On a buffer of exactly 9 bytes, the only
one a run reaches (R141), this is R144 word for word; on a longer one it is the first decision of R140's loop (log entry
11). -/
def decide9 (c : Codec) (b : List Byte) : Codec × Result :=
  match firstIndex stx b with
  | none => syncDrop c b b.length
  | some 0 =>
    if byteAt b 8 ≠ etx then syncDrop c b 1
    else completeFrame (c.setRxbuf (b.drop frameLen)) (b.take frameLen)
  | some k => syncDrop c b k

/-- What RX.BYTE does to the block and returns (42_rx.md R143, R144). -/
def rxByteOp (b : Byte) (c : Codec) : Codec × Result :=
  if !c.linkUp then (c, report .eNotConnected [])
  else if c.rxbuf.length + 1 < frameLen then (c.setRxbuf (c.rxbuf ++ [b]), report .ok [])
  else decide9 c (c.rxbuf ++ [b])

/-- The loop of `feed_chunk` (42_rx.md R140) over the buffer in `c`. Every turn that goes on removes at least one byte, so
`n` above the buffer's length is fuel enough. -/
def feedLoop : Nat → Codec → Codec
  | 0, c => c
  | n + 1, c =>
    if c.rxbuf.length < frameLen then c
    else match firstIndex stx c.rxbuf with
      | none => (syncDrop c c.rxbuf c.rxbuf.length).1
      | some k =>
        let d := if k = 0 then c else (syncDrop c c.rxbuf k).1
        if d.rxbuf.length < frameLen then d
        else if byteAt d.rxbuf 8 ≠ etx then feedLoop n (syncDrop d d.rxbuf 1).1
        else feedLoop n (completeFrame (d.setRxbuf (d.rxbuf.drop frameLen)) (d.rxbuf.take frameLen)).1

/-- `feed_chunk(rxbuf, K)` (42_rx.md R140): the source's scanner, which the byte-serial RX.BYTE carries out (R142,
R148). -/
def feedChunk (c : Codec) (k : List Byte) : Codec :=
  feedLoop (c.rxbuf.length + k.length + 1) (c.setRxbuf (c.rxbuf ++ k))

/-- A run of RX.BYTE operations: `rx.bytes` (30_encoding.md R88), each with its own result record. -/
def deliver (s : State) (bs : List Byte) : State := bs.foldl (fun s b => s.perform (rxByteOp b)) s

/-- RX.BYTE (42_rx.md R144). -/
def execRxByte (b : Byte) (s : State) : Host.Outcome State Fault Refusal :=
  .next (s.perform (rxByteOp b))

/-- LINK.UP (42_rx.md R146). -/
def execLinkUp (s : State) : Host.Outcome State Fault Refusal :=
  .next (s.perform fun c => (c.setLink true, report .ok []))

/-- LINK.DOWN (42_rx.md R147). -/
def execLinkDown (s : State) : Host.Outcome State Fault Refusal :=
  .next (s.perform fun c => (c.setLink false, report .ok []))

end Sys2Proof.Machine
end

