-- ==== Sys2Proof/Machine/Tx.lean ====
section
/-! DEFINITION. The frame encoder and the command encoder: ENC, SETLED, SETBUZ (41_tx.md R121 to R124). -/

namespace Sys2Proof.Machine

/-- `transmit(f)` (41_tx.md R124): all 9 bytes when the link is up, else nothing sent, counted and reported. -/
def transmit (f : List Byte) (c : Codec) : Codec × Result :=
  if c.linkUp then (c.emitTx f, report .ok [])
  else (c.countTxDropped, report .eNotConnected [])

/-- The SetLed command's payload (41_tx.md R122). -/
def ledPayload (led color : Byte) : Payload := ⟨cmdMod, ledSel, led, color, pad⟩

/-- The SetBuzzer command's payload; the state is in DATA1 (41_tx.md R123, 90_conflicts.md C4). -/
def buzPayload (on : Bool) : Payload := ⟨cmdMod, buzSel, if on then codeDown else codeUp, pad, pad⟩

/-- ENC (41_tx.md R121): returns the frame, sends nothing. -/
def execEnc (mod sel d1 d2 d3 : Byte) (s : State) : Host.Outcome State Fault Refusal :=
  .next (s.perform fun c => (c, report .ok (frameEncode ⟨mod, sel, d1, d2, d3⟩)))

/-- SETLED (41_tx.md R122). -/
def execSetled (led color : Byte) (s : State) : Host.Outcome State Fault Refusal :=
  .next (s.perform (transmit (frameEncode (ledPayload led color))))

/-- SETBUZ (41_tx.md R123). -/
def execSetbuz (on : Byte) (s : State) : Host.Outcome State Fault Refusal :=
  .next (s.perform (transmit (frameEncode (buzPayload (isOn on)))))

end Sys2Proof.Machine
end

