-- ==== Sys2Proof/Machine/WireFrame.lean ====
section
/-! DEFINITION. The three wire-frame rows of the opcode table. A frame enters the block as it arrives on the link: its 9
bytes in index order (20_memory.md R50), one RX.BYTE each (30_encoding.md R72, 42_rx.md R142), as the pseudo-operation
`rx.frame` expands it (30_encoding.md R88). The receive scanner takes every frame, whatever its MOD and SEL (30_encoding.md
R85). Log entry 3. -/

namespace Sys2Proof.Machine

/-- DATA1 of the SetBuzzer and keypad rows, `0011000b` (30_encoding.md R83, R84). -/
def stateByte (b : BitVec 1) : Byte := 0b0011000#7 ++ b

/-- A SetLed-shaped frame arrives (30_encoding.md R82). -/
def execFrameSetled (a c h l : Byte) (s : State) : Host.Outcome State Fault Refusal :=
  .next (deliver s [stx, cmdMod, ledSel, a, c, pad, h, l, etx])

/-- A SetBuzzer-shaped frame arrives (30_encoding.md R83). -/
def execFrameSetbuzzer (o : BitVec 1) (h l : Byte) (s : State) : Host.Outcome State Fault Refusal :=
  .next (deliver s [stx, cmdMod, buzSel, stateByte o, pad, pad, h, l, etx])

/-- A keypad report frame arrives (30_encoding.md R84). -/
def execFrameKeypadReport (d : BitVec 1) (sc x h l : Byte) (s : State) : Host.Outcome State Fault Refusal :=
  .next (deliver s [stx, keypadMod, keypadSel, stateByte d, sc, x, h, l, etx])

end Sys2Proof.Machine
end

