-- ==== Sys2Proof/Machine/Dispatch.lean ====
section
/-! DEFINITION. exec: one arm per instruction. -/

namespace Sys2Proof.Machine

def exec (i : Instr) (s : State) : Host.Outcome State Fault Refusal :=
  match i with
  | .nop => Sys2Proof.Machine.execNop s
  | .crcInit => Sys2Proof.Machine.execCrcInit s
  | .crcByte b => Sys2Proof.Machine.execCrcByte b s
  | .crcRead => Sys2Proof.Machine.execCrcRead s
  | .enc mod sel d1 d2 d3 => Sys2Proof.Machine.execEnc mod sel d1 d2 d3 s
  | .setled led color => Sys2Proof.Machine.execSetled led color s
  | .setbuz on => Sys2Proof.Machine.execSetbuz on s
  | .rxByte b => Sys2Proof.Machine.execRxByte b s
  | .linkUp => Sys2Proof.Machine.execLinkUp s
  | .linkDown => Sys2Proof.Machine.execLinkDown s
  | .dec b0 b1 b2 b3 b4 b5 b6 b7 b8 => Sys2Proof.Machine.execDec b0 b1 b2 b3 b4 b5 b6 b7 b8 s
  | .keydec mod sel d1 d2 d3 => Sys2Proof.Machine.execKeydec mod sel d1 d2 d3 s
  | .regRead idx => Sys2Proof.Machine.execRegRead idx s
  | .regWrite idx v3 v2 v1 v0 => Sys2Proof.Machine.execRegWrite idx v3 v2 v1 v0 s
  | .cntClear => Sys2Proof.Machine.execCntClear s
  | .illegal op => Sys2Proof.Machine.execIllegal op s
  | .frameSetled a c h l => Sys2Proof.Machine.execFrameSetled a c h l s
  | .frameSetbuzzer o h l => Sys2Proof.Machine.execFrameSetbuzzer o h l s
  | .frameKeypadReport d sc x h l => Sys2Proof.Machine.execFrameKeypadReport d sc x h l s

end Sys2Proof.Machine
end

