-- ==== Sys2Proof/WellFormed.lean ====
section
/-! DEFINITION. Which instructions are well formed. Every operand byte of an operation is legal (30_encoding.md R74,
R75), so the checks are two: an `illegal` opcode is none of the fifteen of R76, and a wire frame carries the CRC of
its payload (R71). -/

namespace Sys2Proof

/-- The fifteen assigned opcodes (30_encoding.md R76). -/
def assignedOpcodes : List Byte :=
  [0x00#8, 0x10#8, 0x11#8, 0x12#8, 0x20#8, 0x21#8, 0x22#8, 0x30#8, 0x31#8, 0x32#8, 0x40#8, 0x41#8, 0x50#8, 0x51#8,
    0x52#8]

/-- Are `h` and `l` the CRC_HI and CRC_LO of this payload (30_encoding.md R71, 40_crc.md R101)? -/
def crcBytesMatch (payload : List Byte) (h l : Byte) : Bool :=
  h == Machine.hi (Machine.crc16 payload) && l == Machine.lo (Machine.crc16 payload)

/-- Well-formedness of an instruction. A frame row that fails it is a frame with a damaged CRC: it can still arrive,
and the receive scanner drops it (log entry 12). -/
def Instr.wellFormed : Instr → Bool
  | .illegal op => !(assignedOpcodes.contains op)
  | .frameSetled a c h l => crcBytesMatch [0x11#8, 0x3A#8, a, c, 0x20#8] h l
  | .frameSetbuzzer o h l => crcBytesMatch [0x11#8, 0x3B#8, 0b0011000#7 ++ o, 0x20#8, 0x20#8] h l
  | .frameKeypadReport d s x h l => crcBytesMatch [0x10#8, 0x3D#8, 0b0011000#7 ++ d, s, x] h l
  | .nop | .crcInit | .crcByte _ | .crcRead | .enc _ _ _ _ _ | .setled _ _ | .setbuz _ | .rxByte _ | .linkUp
  | .linkDown | .dec _ _ _ _ _ _ _ _ _ | .keydec _ _ _ _ _ | .regRead _ | .regWrite _ _ _ _ _ | .cntClear => true

end Sys2Proof
end

