-- ==== Sys2Proof/Decode.lean ====
section
/-! DEFINITION. Decoding and encoding, both layers of 30_encoding.md: operations (R73 to R78) and wire frames (R70,
R82 to R84). The decoders are total and reject by name. -/

namespace Sys2Proof

/-- Why a byte sequence is no instruction. -/
inductive DecodeError where
  /-- There is no byte at all. -/
  | noBytes
  /-- The opcode's operand bytes are not all there (30_encoding.md R79). -/
  | truncated (op : Byte)
  /-- A wire frame is exactly 9 bytes (30_encoding.md R70). -/
  | notNineBytes
  /-- The 9 bytes match none of the three frame rows (30_encoding.md R82 to R84). -/
  | noFrameRow
  deriving DecidableEq, Repr

/-- The length of an operation, its opcode byte counted, from the opcode alone (30_encoding.md R76, R77). -/
def opLength (op : Byte) : Nat :=
  match op.toNat with
  | 0x11 => 2
  | 0x20 => 6
  | 0x21 => 3
  | 0x22 => 2
  | 0x30 => 2
  | 0x40 => 10
  | 0x41 => 6
  | 0x50 => 2
  | 0x51 => 6
  | _ => 1

/-- Decode the operation that starts a byte stream, and give the bytes after it (30_encoding.md R76 to R79). -/
def decodeOp : List Byte → Except DecodeError (Instr × List Byte)
  | [] => .error .noBytes
  | op :: xs =>
    match op.toNat with
    | 0x00 => .ok (.nop, xs)
    | 0x10 => .ok (.crcInit, xs)
    | 0x11 => match xs with
      | b :: r => .ok (.crcByte b, r)
      | _ => .error (.truncated op)
    | 0x12 => .ok (.crcRead, xs)
    | 0x20 => match xs with
      | m :: s :: d :: e :: f :: r => .ok (.enc m s d e f, r)
      | _ => .error (.truncated op)
    | 0x21 => match xs with
      | a :: c :: r => .ok (.setled a c, r)
      | _ => .error (.truncated op)
    | 0x22 => match xs with
      | o :: r => .ok (.setbuz o, r)
      | _ => .error (.truncated op)
    | 0x30 => match xs with
      | b :: r => .ok (.rxByte b, r)
      | _ => .error (.truncated op)
    | 0x31 => .ok (.linkUp, xs)
    | 0x32 => .ok (.linkDown, xs)
    | 0x40 => match xs with
      | p :: q :: r :: s :: t :: u :: v :: w :: x :: rest => .ok (.dec p q r s t u v w x, rest)
      | _ => .error (.truncated op)
    | 0x41 => match xs with
      | m :: s :: d :: e :: f :: r => .ok (.keydec m s d e f, r)
      | _ => .error (.truncated op)
    | 0x50 => match xs with
      | i :: r => .ok (.regRead i, r)
      | _ => .error (.truncated op)
    | 0x51 => match xs with
      | i :: v :: w :: x :: y :: r => .ok (.regWrite i v w x y, r)
      | _ => .error (.truncated op)
    | 0x52 => .ok (.cntClear, xs)
    | _ => .ok (.illegal op, xs)

/-- Decode one wire frame against the three frame rows (30_encoding.md R82 to R84). The CRC bytes are operands here:
whether they are right is `Instr.wellFormed`. -/
def decodeFrame : List Byte → Except DecodeError Instr
  | [b0, b1, b2, b3, b4, b5, h, l, b8] =>
    if b0 = 0x02#8 ∧ b1 = 0x11#8 ∧ b2 = 0x3A#8 ∧ b5 = 0x20#8 ∧ b8 = 0x03#8 then
      .ok (.frameSetled b3 b4 h l)
    else if b0 = 0x02#8 ∧ b1 = 0x11#8 ∧ b2 = 0x3B#8 ∧ b3.extractLsb' 1 7 = 0b0011000#7 ∧ b4 = 0x20#8 ∧ b5 = 0x20#8 ∧
        b8 = 0x03#8 then
      .ok (.frameSetbuzzer (b3.extractLsb' 0 1) h l)
    else if b0 = 0x02#8 ∧ b1 = 0x10#8 ∧ b2 = 0x3D#8 ∧ b3.extractLsb' 1 7 = 0b0011000#7 ∧ b8 = 0x03#8 then
      .ok (.frameKeypadReport (b3.extractLsb' 0 1) b4 b5 h l)
    else .error .noFrameRow
  | _ => .error .notNineBytes

/-- The bytes of an instruction: opcode and operands (30_encoding.md R76), or the 9 bytes of the frame (R82 to
R84), first byte first. -/
def encode : Instr → List Byte
  | .nop => [0x00#8]
  | .crcInit => [0x10#8]
  | .crcByte b => [0x11#8, b]
  | .crcRead => [0x12#8]
  | .enc m s d e f => [0x20#8, m, s, d, e, f]
  | .setled a c => [0x21#8, a, c]
  | .setbuz o => [0x22#8, o]
  | .rxByte b => [0x30#8, b]
  | .linkUp => [0x31#8]
  | .linkDown => [0x32#8]
  | .dec p q r s t u v w x => [0x40#8, p, q, r, s, t, u, v, w, x]
  | .keydec m s d e f => [0x41#8, m, s, d, e, f]
  | .regRead i => [0x50#8, i]
  | .regWrite i v w x y => [0x51#8, i, v, w, x, y]
  | .cntClear => [0x52#8]
  | .illegal op => [op]
  | .frameSetled a c h l => [0x02#8, 0x11#8, 0x3A#8, a, c, 0x20#8, h, l, 0x03#8]
  | .frameSetbuzzer o h l => [0x02#8, 0x11#8, 0x3B#8, 0b0011000#7 ++ o, 0x20#8, 0x20#8, h, l, 0x03#8]
  | .frameKeypadReport d s x h l => [0x02#8, 0x10#8, 0x3D#8, 0b0011000#7 ++ d, s, x, h, l, 0x03#8]

/-- `n` bytes of `w`, the byte of bits 7:0 first. -/
def lowFirst : Nat → Nat → List Byte
  | 0, _ => []
  | n + 1, w => BitVec.ofNat 8 w :: lowFirst n (w / 256)

/-- Does this byte sequence match one of the three frame rows? -/
def matchesFrameRow (bs : List Byte) : Bool :=
  match decodeFrame bs with
  | .ok _ => true
  | .error _ => false

/-- The 9 bytes of a 72-bit table word. The table writes a frame row as the frame value of 30_encoding.md R70, byte 0 in
bits 71:64; a word that is no frame so read is read with byte 0 in bits 7:0, as the table's operation rows are. No
word is a frame in both readings, since byte 0 is 0x02 and byte 8 is 0x03 (log entry 14). -/
def tableFrameBytes (w : Nat) : List Byte :=
  if matchesFrameRow (lowFirst 9 w).reverse then (lowFirst 9 w).reverse else lowFirst 9 w

/-- The bytes of an operation row's table word: byte 0 in bits 7:0, the bytes above `nbits` zero, and as many bytes as
the opcode asks for (at most 10). -/
def tableOpBytes (nbits w : Nat) : List Byte :=
  let bs := lowFirst 10 (w % 2 ^ nbits)
  bs.take (opLength (bs.headD 0#8))

/-- The instruction the decoder reads from a table word: a 72-bit word is a frame (no operation is 9 bytes long), any
other an operation. -/
def decodeTableWord (nbits w : Nat) : Option Instr :=
  if nbits = 72 then
    match decodeFrame (tableFrameBytes w) with
    | .ok i => some i
    | .error _ => none
  else
    match decodeOp (tableOpBytes nbits w) with
    | .ok (i, _) => some i
    | .error _ => none

end Sys2Proof
end

