-- ==== Sys2Proof/Machine/Fetch.lean ====
section
/-! DEFINITION. Taking the next operation from the ports. The block fetches nothing itself (10_state.md R21): the ports
deliver operations, each port in its own order, and the two orders interleave in any way (20_memory.md R59), which
`State.turns` says (log entry 2). -/

namespace Sys2Proof.Machine

/-- The next operation on a port whose waiting bytes are `bytes`; `after rest` is the state in which it is performed, with
`rest` left waiting. A port with nothing waiting delivers nothing in its turn. -/
def fetchPort (bytes : List Byte) (after : List Byte → State) : Fetched :=
  match decodeOp bytes with
  | .ok (i, rest) => .run i (after rest)
  | .error (.truncated op) => .refuse (.truncatedOperation op)
  | .error _ => .quiet (after [])

/-- The transport's turn on the wire's waiting bytes: a whole frame of one of the table's frame rows if the next nine bytes
are one, else RX.BYTE of the next byte (30_encoding.md R72; log entry 3). -/
def fetchWire (bytes : List Byte) (after : List Byte → State) : Fetched :=
  match decodeFrame (bytes.take 9), bytes with
  | .ok i, _ => .run i (after (bytes.drop 9))
  | .error _, b :: rest => .run (.rxByte b) (after rest)
  | .error _, [] => .quiet (after [])

/-- What the next turn brings. With no turn scheduled the block holds its state (60_exceptions.md R226). -/
def fetch (s : State) : Fetched :=
  match s.turns with
  | [] => .quiet s
  | .host :: ts => fetchPort s.hostIn fun rest => { s with turns := ts, hostIn := rest, port := .host }
  | .link :: ts => fetchPort s.linkIn fun rest => { s with turns := ts, linkIn := rest, port := .link }
  | .wire :: ts => fetchWire s.wireIn fun rest => { s with turns := ts, wireIn := rest, port := .link }
  | .reset :: ts => .quiet { s with turns := ts }.resetInput

/-- An operation's bytes put at the front of the host command port, and the host's turn put next. -/
def placeOp (s : State) (bs : List Byte) : State :=
  { s with turns := .host :: s.turns, hostIn := bs ++ s.hostIn }

/-- A frame's bytes put at the front of the wire, and the transport's turn put next. -/
def placeFrame (s : State) (bs : List Byte) : State :=
  { s with turns := .wire :: s.turns, wireIn := bs ++ s.wireIn }

end Sys2Proof.Machine
end

