-- ==== Sys2Proof/Machine/Step.lean ====
section
/-! DEFINITION. One step: the next turn's operation, performed whole (20_memory.md R57). -/

namespace Sys2Proof.Machine

/-- One step of the machine. A step is one turn: one operation, the reset input, or nothing. -/
def step (s : State) : Host.Outcome State Fault Refusal :=
  match fetch s with
  | .quiet t => .next t
  | .run i t => exec i t
  | .refuse r => .refused r

/-- `s` with the instruction of a table word delivered next: an operation on the host command port, a frame on the wire
(log entry 4). -/
def State.withFetchWord (s : State) (nbits w : Nat) : State :=
  if nbits = 72 then placeFrame s (tableFrameBytes w) else placeOp s (tableOpBytes nbits w)

end Sys2Proof.Machine
end

