-- ==== Sys2Proof/Machine/Asm.lean ====
section
/-! DEFINITION. The assembly syntax (30_encoding.md R86), its symbols (R87) and the pseudo-operations (R88). They are how
operations are written down, not part of the block (92_eei_decisions.md D30). Where R86 to R88 leave the syntax open, or
the spec's own examples write it otherwise, log entries 15 and 20. -/

namespace Sys2Proof.Machine

/-- The mnemonics of R86 and the pseudo-operations of R88. -/
inductive Mnemonic where
  | nop | crcInit | crcByte | crcRead | enc | setled | setbuz | rxByte | linkUp | linkDown | dec | keydec | regRead
  | regWrite | cntClear
  | rxBytes | rxFrame | crcBlock | keyfilter | reconnect
  deriving DecidableEq, Repr

/-- Why a line does not assemble. -/
inductive AsmError where
  | unknownMnemonic
  /-- An operand is no number and no symbol, or is too large for its field. -/
  | badOperand
  /-- The mnemonic does not take this number of operands. -/
  | operandCount
  deriving DecidableEq, Repr

/-- How each mnemonic is written (R86, R88). -/
def mnemonicNames : List (List Char × Mnemonic) :=
  [("nop".toList, .nop), ("crc.init".toList, .crcInit), ("crc.byte".toList, .crcByte), ("crc.read".toList, .crcRead),
    ("enc".toList, .enc), ("setled".toList, .setled), ("setbuz".toList, .setbuz), ("rx.byte".toList, .rxByte),
    ("link.up".toList, .linkUp), ("link.down".toList, .linkDown)] ++
  [("dec".toList, .dec), ("keydec".toList, .keydec), ("reg.read".toList, .regRead), ("reg.write".toList, .regWrite),
    ("cnt.clear".toList, .cntClear), ("rx.bytes".toList, .rxBytes), ("rx.frame".toList, .rxFrame),
    ("crc.block".toList, .crcBlock), ("keyfilter".toList, .keyfilter), ("reconnect".toList, .reconnect)]

/-- The symbols of R87 other than the buzzer's. DESIGN CHOICE (log entry 15), safe: R87 names no operand for them, and the
model takes each in any operand of any line but a SETBUZ line. -/
def symbolValues : List (List Char × Nat) :=
  [("STX".toList, 0x02), ("ETX".toList, 0x03), ("L1".toList, 0x41), ("L2".toList, 0x42), ("L3".toList, 0x43),
    ("R1".toList, 0x63), ("R2".toList, 0x62), ("R3".toList, 0x61), ("off".toList, 0x30), ("blue".toList, 0x31),
    ("red".toList, 0x32), ("all".toList, 0x33)] ++
  [("FRAMES_OK".toList, 0x00), ("CRC_ERR".toList, 0x01), ("SYNC_DROP".toList, 0x02), ("TX_DROPPED".toList, 0x03),
    ("KEY_FILTER".toList, 0x04), ("STATUS".toList, 0x05), ("CRC_ACC".toList, 0x06)]

/-- The symbols of R87 "for SETBUZ only". -/
def buzzerSymbols : List (List Char × Nat) := [("off".toList, 0x00), ("on".toList, 0x01)]

/-- The value a name has in a table of names, if it stands there. -/
def lookupName {α : Type} (names : List (List Char × α)) (t : List Char) : Option α :=
  (names.find? fun r => r.1 == t).map (·.2)

/-- The value of a digit in the given base. -/
def digitValue (base : Nat) (ch : Char) : Option Nat :=
  let v :=
    if '0'.toNat ≤ ch.toNat ∧ ch.toNat ≤ '9'.toNat then some (ch.toNat - '0'.toNat)
    else if 'A'.toNat ≤ ch.toNat ∧ ch.toNat ≤ 'F'.toNat then some (ch.toNat - 'A'.toNat + 10)
    else if 'a'.toNat ≤ ch.toNat ∧ ch.toNat ≤ 'f'.toNat then some (ch.toNat - 'a'.toNat + 10)
    else none
  v.filter (· < base)

/-- The number that digits spell, after `acc`. -/
def digitsValue (base : Nat) : Nat → List Char → Option Nat
  | acc, [] => some acc
  | acc, ch :: rest =>
    match digitValue base ch with
    | some d => digitsValue base (acc * base + d) rest
    | none => none

/-- A number, `0xNN` in hexadecimal or in decimal (R86). DESIGN CHOICE (log entry 20), unsafe for claims about a text with
bare operands: digits without `0x` are decimal, as R86 says, where some vectors of 95_test_vectors.md write bare hexadecimal. -/
def numberValue : List Char → Option Nat
  | [] => none
  | '0' :: 'x' :: d :: ds => digitsValue 16 0 (d :: ds)
  | ds => digitsValue 10 0 ds

/-- An operand's value: a number, or a symbol of R87. DESIGN CHOICE (log entry 15), safe: R87 says that the buzzer's symbols
are for SETBUZ only, and not which others a SETBUZ line takes; the model takes `off` and `on` there (R86) and refuses the
rest. -/
def operandValue (m : Mnemonic) (t : List Char) : Option Nat :=
  match numberValue t with
  | some n => some n
  | none => lookupName (if m = .setbuz then buzzerSymbols else symbolValues) t

/-- A value as a byte operand. -/
def toByte (n : Nat) : Option Byte := if n < 256 then some (BitVec.ofNat 8 n) else none

/-- REG.WRITE of a 32-bit value, which encodes as 4 bytes, high byte first (R86). -/
def regWriteOf (idx : Byte) (v : Word) : Instr :=
  .regWrite idx (v.extractLsb' 24 8) (v.extractLsb' 16 8) (v.extractLsb' 8 8) (v.extractLsb' 0 8)

/-- The operations that a mnemonic with byte operands stands for (R86, R88). `reg.write` is apart, in `assembleOps`. -/
def expand (m : Mnemonic) (bs : List Byte) : Option (List Instr) :=
  match m, bs with
  | .nop, [] => some [.nop]
  | .crcInit, [] => some [.crcInit]
  | .crcByte, [b] => some [.crcByte b]
  | .crcRead, [] => some [.crcRead]
  | .enc, [a, b, c, d, e] => some [.enc a b c d e]
  | .setled, [a, c] => some [.setled a c]
  | .setbuz, [o] => some [.setbuz o]
  | .rxByte, [b] => some [.rxByte b]
  | .linkUp, [] => some [.linkUp]
  | .linkDown, [] => some [.linkDown]
  | .dec, [a, b, c, d, e, f, g, h, i] => some [.dec a b c d e f g h i]
  | .keydec, [a, b, c, d, e] => some [.keydec a b c d e]
  | .regRead, [i] => some [.regRead i]
  | .cntClear, [] => some [.cntClear]
  | .rxBytes, b :: bs => some ((b :: bs).map .rxByte)
  | .rxFrame, [a, b, c, d, e] => some ((frameEncode ⟨a, b, c, d, e⟩).map .rxByte)
  | .crcBlock, b :: bs => some (.crcInit :: (b :: bs).map .crcByte)
  | .keyfilter, [a, b] => some [regWriteOf 0x04#8 ((a ++ b).setWidth 32)]
  | .reconnect, [] => some [.linkDown, .linkUp]
  | _, _ => none

/-- The operations of one mnemonic with its operands' values. -/
def assembleOps (m : Mnemonic) (vs : List Nat) : Except AsmError (List Instr) :=
  match m, vs with
  | .regWrite, [i, v] =>
    match toByte i with
    | some idx => if v < 2 ^ 32 then .ok [regWriteOf idx (BitVec.ofNat 32 v)] else .error .badOperand
    | none => .error .badOperand
  | m, vs =>
    match vs.mapM toByte with
    | none => .error .badOperand
    | some bs =>
      match expand m bs with
      | some is => .ok is
      | none => .error .operandCount

/-- Drop blanks at both ends. -/
def trimBlanks (t : List Char) : List Char :=
  (((t.dropWhile (· == ' ')).reverse).dropWhile (· == ' ')).reverse

/-- The pieces of a text between commas; the empty text has none. -/
def splitCommas : List Char → List (List Char)
  | [] => []
  | ch :: rest =>
    if ch = ',' then [] :: (match splitCommas rest with | [] => [[]] | ps => ps)
    else match splitCommas rest with
      | [] => [[ch]]
      | p :: ps => (ch :: p) :: ps

/-- Assemble one line: the mnemonic, a blank, operands between commas, and a comment from `;` on (R86). A line with no
mnemonic is no operation. -/
def assembleLine (line : List Char) : Except AsmError (List Instr) :=
  let t := trimBlanks (line.takeWhile (· != ';'))
  let name := t.takeWhile (· != ' ')
  if name = [] then .ok []
  else match lookupName mnemonicNames name with
    | none => .error .unknownMnemonic
    | some m =>
      match ((splitCommas (t.drop name.length)).map trimBlanks).mapM (operandValue m) with
      | none => .error .badOperand
      | some vs => assembleOps m vs

/-- Assemble lines in order; the first line that fails stops it. -/
def assemble : List (List Char) → Except AsmError (List Instr)
  | [] => .ok []
  | l :: ls =>
    match assembleLine l, assemble ls with
    | .ok is, .ok js => .ok (is ++ js)
    | .error e, _ => .error e
    | .ok _, .error e => .error e

end Sys2Proof.Machine
end

