-- ==== Sys2Proof/Safety.lean ====
section
/-! DEFINITION. The terms that claims are stated in: a run of operations, what a completed operation leaves, the invariants,
and the duties the spec lays on the host and the transport. -/

namespace Sys2Proof.Safety

open Sys2Proof.Machine

/-- Perform operations one after another, as one port with nothing from the other in between delivers them. -/
def runOps : List Instr → State → Host.Outcome State Fault Refusal
  | [], s => .next s
  | i :: is, s =>
    match exec i s with
    | .next t => runOps is t
    | .fault r => .fault r
    | .refused r => .refused r

/-- `s` after one operation that left the block as `c` and returned `{st, ev, data}` to the port that delivered it, and
changed nothing else. -/
def after (s : State) (c : Codec) (st : Status) (ev : Event) (data : List Byte) : State :=
  { s with codec := c, results := s.results ++ [⟨s.port, ⟨st, ev, data⟩⟩] }

/-- The block after receiving bytes one RX.BYTE each (42_rx.md R142). -/
def receive (c : Codec) (bs : List Byte) : Codec := bs.foldl (fun c b => (rxByteOp b c).1) c

/-- The block after the source's `feed` of one chunk after another (42_rx.md R140). -/
def feedAll (c : Codec) (chunks : List (List Byte)) : Codec := chunks.foldl feedChunk c

/-- A buffer without its leading bytes that are not STX (42_rx.md R149, R150). -/
def stripNoise (b : List Byte) : List Byte := b.dropWhile (· != 0x02#8)

/-- The bound of the receive buffer between operations (42_rx.md R141). -/
abbrev RxBound (s : State) : Prop := s.codec.rxbuf.length ≤ 8

/-- Bytes that are whole operations, one after another (30_encoding.md R79). -/
def WholeOps (bs : List Byte) : Prop :=
  ∃ is : List Instr, (∀ i ∈ is, i.isFrame = false ∧ i.wellFormed = true) ∧ bs = is.flatMap encode

/-- Both ports deliver every operation whole (30_encoding.md R79). -/
def PortsWhole (s : State) : Prop := WholeOps s.hostIn ∧ WholeOps s.linkIn

/-- The machine goes on in this state. -/
def GoesOn (s : State) : Prop := ∃ t, step s = .next t

/-- A frame with bit `j` flipped, where bit `j` is bit `j % 8` of byte `j / 8`. -/
def flipBit (f : List Byte) (j : Nat) : List Byte :=
  f.set (j / 8) (byteAt f (j / 8) ^^^ (1#8 <<< (j % 8)))

/-- `i` then `j` leaves the block as `j` then `i` does, and each returns the same result records either way
(20_memory.md R62). -/
def CommuteAt (i j : Instr) (s : State) : Prop :=
  ∃ t u ri rj, runOps [i, j] s = .next t ∧ runOps [j, i] s = .next u ∧ t.codec = u.codec ∧
    t.results = s.results ++ ri ++ rj ∧ u.results = s.results ++ rj ++ ri ∧
    (∃ v, exec i s = .next v ∧ v.results = s.results ++ ri) ∧ (∃ v, exec j s = .next v ∧ v.results = s.results ++ rj)

/-- The key events that a yielded payload with these bytes adds under the block's filter: one when MOD and SEL pass, DATA1
is a key state and the scan code is mapped, else none (43_decode.md R173, R176). -/
def keyEventsOf (c : Codec) (mod sel d1 d2 : Byte) : List KeyEvent :=
  if mod = c.keyMod ∧ sel = c.keySel ∧ (d1 = 0x31#8 ∨ d1 = 0x30#8) then
    match Config.scanTable d2 with
    | some k => [⟨k, d1 == 0x31#8⟩]
    | none => []
  else []

/-- The instructions that put bytes through the receive scanner: RX.BYTE and the wire-frame rows. -/
def receives : Instr → Bool
  | .rxByte _ | .frameSetled _ _ _ _ | .frameSetbuzzer _ _ _ | .frameKeypadReport _ _ _ _ _ => true
  | .nop | .crcInit | .crcByte _ | .crcRead | .enc _ _ _ _ _ | .setled _ _ | .setbuz _ | .linkUp | .linkDown
  | .dec _ _ _ _ _ _ _ _ _ | .keydec _ _ _ _ _ | .regRead _ | .regWrite _ _ _ _ _ | .cntClear | .illegal _ => false

/-- The link events. -/
def isLinkEvent : Instr → Bool
  | .linkUp | .linkDown => true
  | .nop | .crcInit | .crcByte _ | .crcRead | .enc _ _ _ _ _ | .setled _ _ | .setbuz _ | .rxByte _
  | .dec _ _ _ _ _ _ _ _ _ | .keydec _ _ _ _ _ | .regRead _ | .regWrite _ _ _ _ _ | .cntClear | .illegal _
  | .frameSetled _ _ _ _ | .frameSetbuzzer _ _ _ | .frameKeypadReport _ _ _ _ _ => false

/-- The commands that transmit. -/
def transmits : Instr → Bool
  | .setled _ _ | .setbuz _ => true
  | .nop | .crcInit | .crcByte _ | .crcRead | .enc _ _ _ _ _ | .rxByte _ | .linkUp | .linkDown
  | .dec _ _ _ _ _ _ _ _ _ | .keydec _ _ _ _ _ | .regRead _ | .regWrite _ _ _ _ _ | .cntClear | .illegal _
  | .frameSetled _ _ _ _ | .frameSetbuzzer _ _ _ | .frameKeypadReport _ _ _ _ _ => false

/-- Group C of 20_memory.md R62: the standalone CRC generator's operations. -/
def inCrcGroup : Instr → Bool
  | .crcInit | .crcByte _ | .crcRead => true
  | .nop | .enc _ _ _ _ _ | .setled _ _ | .setbuz _ | .rxByte _ | .linkUp | .linkDown
  | .dec _ _ _ _ _ _ _ _ _ | .keydec _ _ _ _ _ | .regRead _ | .regWrite _ _ _ _ _ | .cntClear | .illegal _
  | .frameSetled _ _ _ _ | .frameSetbuzzer _ _ _ | .frameKeypadReport _ _ _ _ _ => false

/-- The operations with no side effect on state: those that 20_memory.md R58 lists, and the illegal opcodes (44_control.md
R196). -/
def isPure : Instr → Bool
  | .nop | .enc _ _ _ _ _ | .crcRead | .dec _ _ _ _ _ _ _ _ _ | .keydec _ _ _ _ _ | .regRead _
  | .illegal _ => true
  | .crcInit | .crcByte _ | .setled _ _ | .setbuz _ | .rxByte _ | .linkUp | .linkDown | .regWrite _ _ _ _ _ | .cntClear
  | .frameSetled _ _ _ _ | .frameSetbuzzer _ _ _ | .frameKeypadReport _ _ _ _ _ => false

/-- The statuses that 60_exceptions.md R211 lets an instruction's result records carry. -/
def statusesOf : Instr → List Status
  | .nop | .crcInit | .crcByte _ | .crcRead | .enc _ _ _ _ _ | .linkUp | .linkDown | .cntClear => [.ok]
  | .setled _ _ | .setbuz _ | .rxByte _ | .frameSetled _ _ _ _ | .frameSetbuzzer _ _ _ | .frameKeypadReport _ _ _ _ _ =>
    [.ok, .eNotConnected]
  | .dec _ _ _ _ _ _ _ _ _ => [.ok, .eBadStx, .eBadEtx, .eCrc]
  | .keydec _ _ _ _ _ => [.ok, .nNotKeypad, .nBadState, .nUnmapped]
  | .regRead _ => [.ok, .eBadReg]
  | .regWrite _ _ _ _ _ => [.ok, .eBadReg, .eRoReg]
  | .illegal _ => [.eIllegalOp]

/-- How many result records an instruction returns: one, or one for each of a frame's nine bytes. -/
def recordCount (i : Instr) : Nat := if i.isFrame then 9 else 1

/-- `s` with earlier output put in front of the three output streams. -/
def prefixStreams (tx : List Byte) (fr : List Payload) (ke : List KeyEvent) (s : State) : State :=
  { s with codec := { s.codec with
      txStream := tx ++ s.codec.txStream, rxFrames := fr ++ s.codec.rxFrames, keyEvents := ke ++ s.codec.keyEvents } }

/-- `s` with another value in the standalone CRC accumulator. -/
def withAccumulator (v : Half) (s : State) : State := { s with codec := { s.codec with crcAcc := v } }

/-- A SETLED or SETBUZ as the host sees it: when it was performed and what it returned. -/
structure Command where
  atMs : Nat
  status : Status
  deriving DecidableEq, Repr

/-- The host's duty of 70_reset_and_hazards.md R251 on its SETLED and SETBUZ operations in order: after one that returned
OK, SETTLE_MIN passes before the next. The block does not check it (41_tx.md R126); it is a premise for claims about the
pendant. -/
def settleRespected : List Command → Prop
  | [] => True
  | [_] => True
  | a :: b :: rest =>
    (a.status = .ok → a.atMs + Config.settleMinMs ≤ b.atMs) ∧ settleRespected (b :: rest)

end Sys2Proof.Safety
end

