-- ==== Sys2Proof/Certificates/Slice0/Obligations.lean ====
section
/-! DEFINITION. The statements for the provers. -/

open Sys2Proof Sys2Proof.Machine Sys2Proof.Safety

/-! ### Reset and the state -/

/-- 10_state.md R44: the reset value of every state element. -/
def Obligations.ResetLeavesTheStatedValues : Prop :=
  State.reset.codec.rxbuf = [] ∧ State.reset.codec.linkUp = false ∧ State.reset.codec.crcAcc = 0xFFFF#16 ∧
    State.reset.codec.keyMod = 0x10#8 ∧ State.reset.codec.keySel = 0x3D#8 ∧ State.reset.codec.cntFramesOk = 0#32 ∧
    State.reset.codec.cntCrcErr = 0#32 ∧ State.reset.codec.cntSyncDrop = 0#32 ∧ State.reset.codec.cntTxDropped = 0#32 ∧
    State.reset.codec.txStream = [] ∧ State.reset.codec.rxFrames = [] ∧ State.reset.codec.keyEvents = []

/-- 70_reset_and_hazards.md R240: the reset input, between any two operations and whatever the block holds, sets every
state element to its value of R44. -/
def Obligations.ResetInputRestoresEveryElement : Prop :=
  ∀ (s : State) (ts : List Turn), s.turns = .reset :: ts →
    ∃ t, step s = .next t ∧ t.turns = ts ∧
      t.codec.rxbuf = [] ∧ t.codec.linkUp = false ∧ t.codec.crcAcc = 0xFFFF#16 ∧
      t.codec.keyMod = 0x10#8 ∧ t.codec.keySel = 0x3D#8 ∧ t.codec.cntFramesOk = 0#32 ∧
      t.codec.cntCrcErr = 0#32 ∧ t.codec.cntSyncDrop = 0#32 ∧ t.codec.cntTxDropped = 0#32 ∧
      t.codec.txStream = [] ∧ t.codec.rxFrames = [] ∧ t.codec.keyEvents = []

/-- 42_rx.md R141 and 30_encoding.md R79: the two invariants hold at reset. That nothing waits at the ports then is the model's
choice (log entry 8). -/
def Obligations.RxbufBoundHoldsAtReset : Prop := RxBound State.reset ∧ PortsWhole State.reset

/-- 42_rx.md R141: between operations the receive buffer holds at most 8 bytes. From every state that meets the bound,
whatever the next turn brings. -/
def Obligations.StepKeepsRxbufBound : Prop :=
  ∀ s t : State, RxBound s → step s = .next t → RxBound t

/-- 10_state.md R22, the "written by" column, as the frame of every instruction: each completes, and a field changes only
under its writers. The ports, the schedule and the wire never change under an operation. -/
def Obligations.FieldsHaveOnlyTheirWriters : Prop :=
  ∀ (i : Instr) (s : State), ∃ t, exec i s = .next t ∧
    (receives i = false → isLinkEvent i = false → t.codec.rxbuf = s.codec.rxbuf) ∧
    (isLinkEvent i = false → t.codec.linkUp = s.codec.linkUp) ∧
    (i ≠ .crcInit → (∀ b, i ≠ .crcByte b) → t.codec.crcAcc = s.codec.crcAcc) ∧
    ((∀ v3 v2 v1 v0, i ≠ .regWrite 0x04#8 v3 v2 v1 v0) →
      t.codec.keyMod = s.codec.keyMod ∧ t.codec.keySel = s.codec.keySel) ∧
    (receives i = false → i ≠ .cntClear → t.codec.cntFramesOk = s.codec.cntFramesOk ∧
      t.codec.cntCrcErr = s.codec.cntCrcErr ∧ t.codec.cntSyncDrop = s.codec.cntSyncDrop) ∧
    (transmits i = false → i ≠ .cntClear → t.codec.cntTxDropped = s.codec.cntTxDropped) ∧
    (transmits i = false → t.codec.txStream = s.codec.txStream) ∧
    (receives i = false → t.codec.rxFrames = s.codec.rxFrames ∧ t.codec.keyEvents = s.codec.keyEvents) ∧
    t.turns = s.turns ∧ t.hostIn = s.hostIn ∧ t.linkIn = s.linkIn ∧ t.wireIn = s.wireIn ∧ t.port = s.port

/-- 10_state.md R28: the output streams are only appended to, and no operation reads them back. Whatever was on the streams
before stays in front and changes nothing else. -/
def Obligations.StreamsAreOnlyAppended : Prop :=
  ∀ (i : Instr) (s : State) (tx : List Byte) (fr : List Payload) (ke : List KeyEvent),
    ∃ t, exec i s = .next t ∧ exec i (prefixStreams tx fr ke s) = .next (prefixStreams tx fr ke t)

/-- 10_state.md R29: no operation reads an earlier operation's result. -/
def Obligations.ResultsAreNeverRead : Prop :=
  ∀ (i : Instr) (s : State) (rs : List Returned), ∃ t new, exec i s = .next t ∧ t.results = s.results ++ new ∧
    exec i { s with results := rs } = .next { t with results := rs ++ new }

/-- 10_state.md R25: the frame encoder and the frame checkers neither read nor write `crc_acc`; nor does any other operation
but the CRC generator's own and REG.READ of CRC_ACC. -/
def Obligations.FramePathsIgnoreTheAccumulator : Prop :=
  ∀ (i : Instr) (s : State) (v : Half), inCrcGroup i = false → i ≠ .regRead 0x06#8 →
    ∃ t, exec i s = .next t ∧ t.codec.crcAcc = s.codec.crcAcc ∧
      exec i (withAccumulator v s) = .next (withAccumulator v t)

/-- 60_exceptions.md R221: every operation may be issued by either port, and no state is protected from either. The block
ends the same, and the same records come back, to the port that asked. -/
def Obligations.EitherPortMayIssueEveryOperation : Prop :=
  ∀ (i : Instr) (s : State) (p : Port), ∃ (t u : State) (new : List Result), exec i s = .next t ∧ exec i { s with port := p } = .next u ∧
    u.codec = t.codec ∧ t.results = s.results ++ new.map (fun r => ⟨s.port, r⟩) ∧
    u.results = s.results ++ new.map (fun r => ⟨p, r⟩)

/-! ### Encoding -/

/-- 30_encoding.md R76: decoding the encoding of a well-formed operation gives it back with every operand, and leaves the
bytes of the next operation. -/
def Obligations.OperationDecodeOfEncode : Prop :=
  ∀ (i : Instr) (rest : List Byte), i.isFrame = false → i.wellFormed = true → decodeOp (encode i ++ rest) = .ok (i, rest)

/-- 30_encoding.md R82 to R84: decoding the encoding of a frame row gives it back with every field. -/
def Obligations.FrameDecodeOfEncode : Prop :=
  ∀ i : Instr, i.isFrame = true → decodeFrame (encode i) = .ok i

/-- 30_encoding.md R76 to R78, the other direction: what the operation decoder accepts is a well-formed operation, and the
bytes it took are its encoding. -/
def Obligations.DecodedOperationIsItsEncoding : Prop :=
  ∀ (bs : List Byte) (i : Instr) (rest : List Byte), decodeOp bs = .ok (i, rest) →
    i.isFrame = false ∧ i.wellFormed = true ∧ bs = encode i ++ rest

/-- 30_encoding.md R77: an operation's length comes from its opcode byte alone, by the table of R76; every opcode not in the
table has length 1 and is illegal. The decoder takes that many bytes, and is total: it fails only where they are not all
there. -/
def Obligations.LengthFromOpcodeAlone : Prop :=
  (∀ op : Byte, opLength op =
    if op ∈ [0x11#8, 0x22#8, 0x30#8, 0x50#8] then 2 else if op = 0x21#8 then 3
    else if op ∈ [0x20#8, 0x41#8, 0x51#8] then 6 else if op = 0x40#8 then 10 else 1) ∧
  ∀ (op : Byte) (xs : List Byte),
    (opLength op ≤ xs.length + 1 → ∃ i, decodeOp (op :: xs) = .ok (i, xs.drop (opLength op - 1))) ∧
    (xs.length + 1 < opLength op → decodeOp (op :: xs) = .error (.truncated op)) ∧
    (op ∉ [0x00#8, 0x10#8, 0x11#8, 0x12#8, 0x20#8, 0x21#8, 0x22#8, 0x30#8, 0x31#8, 0x32#8, 0x40#8, 0x41#8, 0x50#8, 0x51#8,
      0x52#8] → decodeOp (op :: xs) = .ok (.illegal op, xs))

/-- 30_encoding.md R82 to R84: a 9-byte sequence is read as a frame row exactly when it has that row's fixed bytes, and
then with the row's fields. -/
def Obligations.FrameRowsMatchTheirPatterns : Prop :=
  ∀ bs : List Byte,
    (∀ a c h l, decodeFrame bs = .ok (.frameSetled a c h l) ↔
      bs = [0x02#8, 0x11#8, 0x3A#8, a, c, 0x20#8, h, l, 0x03#8]) ∧
    (∀ o h l, decodeFrame bs = .ok (.frameSetbuzzer o h l) ↔
      bs = [0x02#8, 0x11#8, 0x3B#8, if o = 1#1 then 0x31#8 else 0x30#8, 0x20#8, 0x20#8, h, l, 0x03#8]) ∧
    (∀ d s x h l, decodeFrame bs = .ok (.frameKeypadReport d s x h l) ↔
      bs = [0x02#8, 0x10#8, 0x3D#8, if d = 1#1 then 0x31#8 else 0x30#8, s, x, h, l, 0x03#8])

/-- Words written out from 30_encoding.md R76 and R82 to R84, one for each group of the opcode map and one for each frame
row. -/
def Obligations.WrittenOutWordsDecode : Prop :=
  decodeOp [0x00#8] = .ok (.nop, []) ∧
  decodeOp [0x11#8, 0x31#8, 0x12#8] = .ok (.crcByte 0x31#8, [0x12#8]) ∧
  decodeOp [0x21#8, 0x41#8, 0x31#8] = .ok (.setled 0x41#8 0x31#8, []) ∧
  decodeOp [0x30#8, 0x02#8] = .ok (.rxByte 0x02#8, []) ∧
  decodeOp [0x41#8, 0x10#8, 0x3D#8, 0x31#8, 0x05#8, 0x20#8] = .ok (.keydec 0x10#8 0x3D#8 0x31#8 0x05#8 0x20#8, []) ∧
  decodeOp [0x51#8, 0x04#8, 0x00#8, 0x01#8, 0x20#8, 0x3D#8] = .ok (.regWrite 0x04#8 0x00#8 0x01#8 0x20#8 0x3D#8, []) ∧
  decodeOp [0x13#8, 0x12#8] = .ok (.illegal 0x13#8, [0x12#8]) ∧
  decodeFrame [0x02#8, 0x11#8, 0x3A#8, 0x41#8, 0x31#8, 0x20#8, 0x87#8, 0x90#8, 0x03#8] =
    .ok (.frameSetled 0x41#8 0x31#8 0x87#8 0x90#8) ∧
  decodeFrame [0x02#8, 0x11#8, 0x3B#8, 0x31#8, 0x20#8, 0x20#8, 0xF0#8, 0x9C#8, 0x03#8] =
    .ok (.frameSetbuzzer 1#1 0xF0#8 0x9C#8) ∧
  decodeFrame [0x02#8, 0x10#8, 0x3D#8, 0x30#8, 0x05#8, 0x20#8, 0xE8#8, 0xEA#8, 0x03#8] =
    .ok (.frameKeypadReport 0#1 0x05#8 0x20#8 0xE8#8 0xEA#8)

/-! ### Stepping -/

/-- A step performs the operation that the decoder reads at the front of the port whose turn it is (30_encoding.md R72, R73;
20_memory.md R59), and on the wire a whole frame row or else one byte (log entries 2 and 3: the model's choice). -/
def Obligations.StepRunsTheDecodedOperation : Prop :=
  (∀ (s : State) (ts : List Turn) (i : Instr) (rest : List Byte), s.turns = .host :: ts → decodeOp s.hostIn = .ok (i, rest) →
    step s = exec i { s with turns := ts, hostIn := rest, port := .host }) ∧
  (∀ (s : State) (ts : List Turn) (i : Instr) (rest : List Byte), s.turns = .link :: ts → decodeOp s.linkIn = .ok (i, rest) →
    step s = exec i { s with turns := ts, linkIn := rest, port := .link }) ∧
  (∀ (s : State) (ts : List Turn) (i : Instr), s.turns = .wire :: ts → decodeFrame (s.wireIn.take 9) = .ok i →
    step s = exec i { s with turns := ts, wireIn := s.wireIn.drop 9, port := .link }) ∧
  (∀ (s : State) (ts : List Turn) (b : Byte) (rest : List Byte) (e : DecodeError), s.turns = .wire :: ts →
    s.wireIn = b :: rest → decodeFrame (s.wireIn.take 9) = .error e →
    step s = exec (.rxByte b) { s with turns := ts, wireIn := rest, port := .link })

/-- Where a turn brings no operation the block holds its state (60_exceptions.md R226), and the reset input leaves what waits
outside and begins a fresh observation (log entries 2 and 7: the model's choice). -/
def Obligations.QuietTurnsHoldTheBlock : Prop :=
  (∀ s : State, s.turns = [] → step s = .next s) ∧
  (∀ (s : State) (ts : List Turn),
    (s.turns = .host :: ts ∧ s.hostIn = []) ∨ (s.turns = .link :: ts ∧ s.linkIn = []) ∨
      (s.turns = .wire :: ts ∧ s.wireIn = []) →
    ∃ t, step s = .next t ∧ t.turns = ts ∧ t.codec = s.codec ∧ t.results = s.results ∧ t.hostIn = s.hostIn ∧
      t.linkIn = s.linkIn ∧ t.wireIn = s.wireIn) ∧
  (∀ (s : State) (ts : List Turn), s.turns = .reset :: ts →
    ∃ t, step s = .next t ∧ t.hostIn = s.hostIn ∧ t.linkIn = s.linkIn ∧ t.wireIn = s.wireIn ∧ t.results = [])

/-- 60_exceptions.md R216: the only outcome that makes the model refuse is the truncated operation of 30_encoding.md R79, and
nothing faults. -/
def Obligations.OnlyTruncatedOperationsRefuse : Prop :=
  ∀ s : State, (∀ f, step s ≠ .fault f) ∧
    ∀ r, step s = .refused r ↔ ∃ op xs, r = .truncatedOperation op ∧ xs.length + 1 < opLength op ∧
      ((∃ ts, s.turns = .host :: ts ∧ s.hostIn = op :: xs) ∨ (∃ ts, s.turns = .link :: ts ∧ s.linkIn = op :: xs))

/-- 30_encoding.md R79 as the ports' duty: while both ports deliver whole operations the machine never stops, and the step
keeps what is left whole. -/
def Obligations.WholePortsNeverStop : Prop :=
  ∀ s : State, PortsWhole s → ∃ t, step s = .next t ∧ PortsWhole t

/-- A table word placed by `withFetchWord` is what the very next step performs, in the state it was placed in (log entry 4:
the host command port for an operation, the wire for a frame). -/
def Obligations.PlacedWordRunsNext : Prop :=
  ∀ (s : State) (nbits w : Nat) (i : Instr), decodeTableWord nbits w = some i →
    step (s.withFetchWord nbits w) = exec i { s with port := if nbits = 72 then .link else .host }

/-- 30_encoding.md R80: every operation returns its result record, to the port that delivered it, and a wire frame one
record for each of its nine bytes (log entry 3); the event is EV_NONE outside the receive scanner. -/
def Obligations.EveryOperationReturnsItsRecord : Prop :=
  ∀ (i : Instr) (s : State), ∃ t new, exec i s = .next t ∧ t.results = s.results ++ new ∧ new.length = recordCount i ∧
    ∀ r ∈ new, r.port = s.port ∧ (receives i = false → r.result.event = .none)

/-- 60_exceptions.md R211: the status codes, and which operation may report which. -/
def Obligations.StatusesComeFromTheirOperations : Prop :=
  (Status.code .ok = 0x00#8 ∧ Status.code .eNotConnected = 0x01#8 ∧ Status.code .eBadStx = 0x02#8 ∧
    Status.code .eBadEtx = 0x03#8 ∧ Status.code .eCrc = 0x04#8 ∧ Status.code .nNotKeypad = 0x05#8 ∧
    Status.code .nBadState = 0x06#8 ∧ Status.code .nUnmapped = 0x07#8 ∧ Status.code .eIllegalOp = 0x08#8 ∧
    Status.code .eBadReg = 0x09#8 ∧ Status.code .eRoReg = 0x0A#8) ∧
  (Event.code .none = 0x00#8 ∧ Event.code .frame = 0x01#8 ∧ Event.code .crcDrop = 0x02#8 ∧
    Event.code .syncDrop = 0x03#8) ∧
  ∀ (i : Instr) (s : State), ∃ t new, exec i s = .next t ∧ t.results = s.results ++ new ∧
    ∀ r ∈ new, r.result.status ∈ statusesOf i

/-! ### Control and registers -/

/-- 44_control.md R190 and R196, 30_encoding.md R78: NOP returns OK and changes nothing; each of the 241 byte values not in
R76 is a one-byte operation that returns E_ILLEGAL_OP and changes nothing, and the next operation starts at the next
byte. -/
def Obligations.NopAndIllegalChangeNothing : Prop :=
  (∀ rest, decodeOp (0x00#8 :: rest) = .ok (.nop, rest)) ∧
  (∀ s, exec .nop s = .next (after s s.codec .ok .none [])) ∧
  (∀ (op : Byte) (rest : List Byte), decodeOp (op :: rest) = .ok (.illegal op, rest) ↔
    (0x01#8 ≤ op ∧ op ≤ 0x0F#8) ∨ (0x13#8 ≤ op ∧ op ≤ 0x1F#8) ∨ (0x23#8 ≤ op ∧ op ≤ 0x2F#8) ∨
      (0x33#8 ≤ op ∧ op ≤ 0x3F#8) ∨ (0x42#8 ≤ op ∧ op ≤ 0x4F#8) ∨ 0x53#8 ≤ op) ∧
  (∀ (op : Byte) (s : State), exec (.illegal op) s = .next (after s s.codec .eIllegalOp .none []))

/-- 44_control.md R191: REG.READ of every index, the value high byte first, and no state written. -/
def Obligations.RegReadReturnsTheRegister : Prop :=
  (∀ idx rest, decodeOp (0x50#8 :: idx :: rest) = .ok (.regRead idx, rest)) ∧
  ∀ s : State,
    let answers := fun (idx : Byte) (v : Word) => exec (.regRead idx) s =
      .next (after s s.codec .ok .none [v.extractLsb' 24 8, v.extractLsb' 16 8, v.extractLsb' 8 8, v.extractLsb' 0 8])
    answers 0x00#8 s.codec.cntFramesOk ∧ answers 0x01#8 s.codec.cntCrcErr ∧ answers 0x02#8 s.codec.cntSyncDrop ∧
    answers 0x03#8 s.codec.cntTxDropped ∧ answers 0x04#8 ((s.codec.keyMod ++ s.codec.keySel).setWidth 32) ∧
    answers 0x05#8 ((BitVec.ofNat 4 s.codec.rxbuf.length ++ BitVec.ofBool s.codec.linkUp).setWidth 32) ∧
    answers 0x06#8 (s.codec.crcAcc.setWidth 32) ∧
    ∀ idx : Byte, 0x07#8 ≤ idx →
      exec (.regRead idx) s = .next (after s s.codec .eBadReg .none [0x00#8, 0x00#8, 0x00#8, 0x00#8])

/-- 44_control.md R192: REG.WRITE of every index. Only KEY_FILTER takes the value, and of it bits 15:0; a read-only index
answers E_RO_REG and a reserved one E_BAD_REG, with no state change. -/
def Obligations.RegWriteReachesOnlyTheFilter : Prop :=
  (∀ idx v3 v2 v1 v0 rest, decodeOp (0x51#8 :: idx :: v3 :: v2 :: v1 :: v0 :: rest) =
    .ok (.regWrite idx v3 v2 v1 v0, rest)) ∧
  ∀ (s : State) (idx v3 v2 v1 v0 : Byte),
    (idx = 0x04#8 → exec (.regWrite idx v3 v2 v1 v0) s =
      .next (after s { s.codec with keyMod := v1, keySel := v0 } .ok .none [])) ∧
    (idx ∈ [0x00#8, 0x01#8, 0x02#8, 0x03#8, 0x05#8, 0x06#8] → exec (.regWrite idx v3 v2 v1 v0) s =
      .next (after s s.codec .eRoReg .none [])) ∧
    (0x07#8 ≤ idx → exec (.regWrite idx v3 v2 v1 v0) s = .next (after s s.codec .eBadReg .none []))

/-- 10_state.md R37: the KEY_FILTER register reads back what was written to its bits 15:0, and its bits 31:16 ignore the
write and read 0. Its reset value is 0x103D. -/
def Obligations.KeyFilterReadsBack : Prop :=
  exec (.regRead 0x04#8) State.reset =
    .next (after State.reset Codec.reset .ok .none [0x00#8, 0x00#8, 0x10#8, 0x3D#8]) ∧
  ∀ (s : State) (v3 v2 v1 v0 : Byte), ∃ t, runOps [.regWrite 0x04#8 v3 v2 v1 v0, .regRead 0x04#8] s = .next t ∧
    t.codec = { s.codec with keyMod := v1, keySel := v0 } ∧
    t.results = s.results ++ [⟨s.port, ⟨.ok, .none, []⟩⟩, ⟨s.port, ⟨.ok, .none, [0x00#8, 0x00#8, v1, v0]⟩⟩]

/-- 10_state.md R38: STATUS reads 0 above bit 4, RX_COUNT in bits 4:1 and LINK_UP in bit 0. Its reset value is 0, and it is
read-only. -/
def Obligations.StatusShowsCountAndLink : Prop :=
  exec (.regRead 0x05#8) State.reset =
    .next (after State.reset Codec.reset .ok .none [0x00#8, 0x00#8, 0x00#8, 0x00#8]) ∧
  (∀ s : State, RxBound s → exec (.regRead 0x05#8) s =
    .next (after s s.codec .ok .none [0x00#8, 0x00#8, 0x00#8,
      BitVec.ofNat 8 (2 * s.codec.rxbuf.length + (if s.codec.linkUp then 1 else 0))])) ∧
  ∀ (s : State) (v3 v2 v1 v0 : Byte), exec (.regWrite 0x05#8 v3 v2 v1 v0) s = .next (after s s.codec .eRoReg .none [])

/-- 44_control.md R195: CNT.CLEAR sets the four counters to 0 and changes nothing else. -/
def Obligations.CntClearZeroesTheCounters : Prop :=
  (∀ rest, decodeOp (0x52#8 :: rest) = .ok (.cntClear, rest)) ∧
  ∀ s : State, exec .cntClear s = .next (after s { s.codec with
    cntFramesOk := 0#32, cntCrcErr := 0#32, cntSyncDrop := 0#32, cntTxDropped := 0#32 } .ok .none [])

/-- 20_memory.md R58, and for the illegal opcodes 44_control.md R196: the operations with no side effect leave the block as it
is and return the same record every time; CRC.INIT and CNT.CLEAR done twice are as done once. -/
def Obligations.PureAndIdempotentOperations : Prop :=
  (∀ (i : Instr) (s : State), isPure i = true → ∃ t r, exec i s = .next t ∧ t.codec = s.codec ∧
    t.results = s.results ++ [r] ∧ ∃ u, exec i t = .next u ∧ u.codec = s.codec ∧ u.results = s.results ++ [r, r]) ∧
  (∀ (i : Instr) (s : State), i = .crcInit ∨ i = .cntClear → ∃ t u, exec i s = .next t ∧ exec i t = .next u ∧
    u.codec = t.codec)

/-! ### The CRC generator -/

/-- 40_crc.md R102 to R104: CRC.INIT, CRC.BYTE and CRC.READ. -/
def Obligations.CrcGeneratorOperations : Prop :=
  (∀ rest, decodeOp (0x10#8 :: rest) = .ok (.crcInit, rest)) ∧
  (∀ b rest, decodeOp (0x11#8 :: b :: rest) = .ok (.crcByte b, rest)) ∧
  (∀ rest, decodeOp (0x12#8 :: rest) = .ok (.crcRead, rest)) ∧
  (∀ s : State, exec .crcInit s = .next (after s { s.codec with crcAcc := 0xFFFF#16 } .ok .none [])) ∧
  (∀ (s : State) (b : Byte), exec (.crcByte b) s =
    .next (after s { s.codec with crcAcc := crc16Update s.codec.crcAcc b } .ok .none [])) ∧
  (∀ s : State, exec .crcRead s =
    .next (after s s.codec .ok .none [s.codec.crcAcc.extractLsb' 8 8, s.codec.crcAcc.extractLsb' 0 8])) ∧
  crc16Update 0xFFFF#16 0x00#8 = 0x40BF#16 ∧ crc16Update 0xFFFF#16 0xFF#8 = 0x00FF#16 ∧
  crc16Update 0xFFFF#16 0x01#8 = 0x807E#16

/-- 40_crc.md R105 item (b): CRC.INIT and then CRC.BYTE of each byte leaves their CRC in the accumulator and changes nothing
else of the block. -/
def Obligations.CrcBlockComputesCrc16 : Prop :=
  ∀ (s : State) (bs : List Byte), ∃ t, runOps (.crcInit :: bs.map .crcByte) s = .next t ∧
    t.codec = { s.codec with crcAcc := crc16 bs } ∧ t.results.length = s.results.length + bs.length + 1

/-- 40_crc.md R105 item (a): the bitwise update equals the table-driven one. -/
def Obligations.CrcTableDrivenForm : Prop :=
  ∀ (c : Half) (b : Byte), crc16Update c b = (c >>> 8) ^^^ crcTable ((c ^^^ b.setWidth 16).setWidth 8)

/-- 40_crc.md R105 item (d): flipping any one bit of bytes 1 to 7 of a valid frame makes its CRC check fail. -/
def Obligations.CrcCatchesEveryFlippedBit : Prop :=
  ∀ (f : List Byte) (j : Nat), f.length = 9 → frameCheck f = .ok → 8 ≤ j → j < 64 → frameCheck (flipBit f j) = .eCrc

/-! ### Transmit -/

/-- 41_tx.md R120 and R121: ENC returns the 9-byte frame of its payload and changes nothing, whether or not the link is
up. -/
def Obligations.EncReturnsTheFrame : Prop :=
  (∀ m e d1 d2 d3 rest, decodeOp (0x20#8 :: m :: e :: d1 :: d2 :: d3 :: rest) = .ok (.enc m e d1 d2 d3, rest)) ∧
  ∀ (s : State) (m e d1 d2 d3 : Byte),
    exec (.enc m e d1 d2 d3) s = .next (after s s.codec .ok .none
      [0x02#8, m, e, d1, d2, d3, (crc16 [m, e, d1, d2, d3]).extractLsb' 8 8, (crc16 [m, e, d1, d2, d3]).extractLsb' 0 8,
        0x03#8])

/-- 41_tx.md R122 to R124: SETLED and SETBUZ append their frame to `tx_stream` when the link is up; when it is down they send
nothing, count the drop and answer E_NOT_CONNECTED. Any operand is sent; SETBUZ is on for every nonzero one. -/
def Obligations.CommandsTransmitWhenLinked : Prop :=
  (∀ a c rest, decodeOp (0x21#8 :: a :: c :: rest) = .ok (.setled a c, rest)) ∧
  (∀ o rest, decodeOp (0x22#8 :: o :: rest) = .ok (.setbuz o, rest)) ∧
  ∀ (s : State) (i : Instr) (e d1 d2 : Byte),
    ((i = .setled d1 d2 ∧ e = 0x3A#8) ∨
      (∃ on, i = .setbuz on ∧ e = 0x3B#8 ∧ d2 = 0x20#8 ∧ d1 = if on = 0x00#8 then 0x30#8 else 0x31#8)) →
    let c := crc16 [0x11#8, e, d1, d2, 0x20#8]
    (s.codec.linkUp = true → exec i s = .next (after s { s.codec with txStream := s.codec.txStream ++
      [0x02#8, 0x11#8, e, d1, d2, 0x20#8, c.extractLsb' 8 8, c.extractLsb' 0 8, 0x03#8] } .ok .none [])) ∧
    (s.codec.linkUp = false → exec i s = .next (after s { s.codec with
      cntTxDropped := s.codec.cntTxDropped + 1#32 } .eNotConnected .none []))

/-- 30_encoding.md R82 and R83: what SETLED and SETBUZ put on a live link is a well-formed SetLed or SetBuzzer frame row. -/
def Obligations.CommandsSendTheirFrameRow : Prop :=
  ∀ s : State, s.codec.linkUp = true →
    (∀ led color, ∃ t h l, exec (.setled led color) s = .next t ∧ (Instr.frameSetled led color h l).wellFormed = true ∧
      t.codec.txStream = s.codec.txStream ++ encode (.frameSetled led color h l)) ∧
    (∀ on, ∃ t h l, exec (.setbuz on) s = .next t ∧
      (Instr.frameSetbuzzer (if on = 0x00#8 then 0#1 else 1#1) h l).wellFormed = true ∧
      t.codec.txStream = s.codec.txStream ++ encode (.frameSetbuzzer (if on = 0x00#8 then 0#1 else 1#1) h l))

/-- 20_memory.md R57: the bytes of a transmitted frame reach `tx_stream` contiguously and whole. Every operation appends to it
one valid 9-byte frame or nothing. -/
def Obligations.TransmittedFramesAreWhole : Prop :=
  ∀ (i : Instr) (s : State), ∃ t f, exec i s = .next t ∧ t.codec.txStream = s.codec.txStream ++ f ∧
    (f = [] ∨ (f.length = 9 ∧ frameCheck f = .ok ∧ s.codec.linkUp = true ∧ transmits i = true))

/-! ### Receive -/

/-- 42_rx.md R143: with the link down RX.BYTE discards its byte and changes no state. -/
def Obligations.RxByteOnADownLink : Prop :=
  ∀ (s : State) (b : Byte), s.codec.linkUp = false →
    exec (.rxByte b) s = .next (after s s.codec .eNotConnected .none [])

/-- 42_rx.md R144 and R145, with the key event of 43_decode.md R176: what RX.BYTE does in each case of the
scanner, on a down link and on a live one. -/
def Obligations.RxByteFollowsTheScanner : Prop :=
  (∀ b rest, decodeOp (0x30#8 :: b :: rest) = .ok (.rxByte b, rest)) ∧
  (∀ (s : State) (b : Byte), s.codec.linkUp = false →
    exec (.rxByte b) s = .next (after s s.codec .eNotConnected .none [])) ∧
  ∀ (s : State) (b : Byte), s.codec.linkUp = true → RxBound s →
    (s.codec.rxbuf.length < 8 → exec (.rxByte b) s =
      .next (after s { s.codec with rxbuf := s.codec.rxbuf ++ [b] } .ok .none [])) ∧
    (s.codec.rxbuf.length = 8 → 0x02#8 ∉ s.codec.rxbuf ++ [b] → exec (.rxByte b) s =
      .next (after s { s.codec with rxbuf := [], cntSyncDrop := s.codec.cntSyncDrop + 9#32 } .ok .syncDrop [9#8])) ∧
    (∀ pre post, s.codec.rxbuf.length = 8 → s.codec.rxbuf ++ [b] = pre ++ 0x02#8 :: post → pre ≠ [] → 0x02#8 ∉ pre →
      exec (.rxByte b) s = .next (after s { s.codec with
        rxbuf := 0x02#8 :: post, cntSyncDrop := s.codec.cntSyncDrop + BitVec.ofNat 32 pre.length }
          .ok .syncDrop [BitVec.ofNat 8 pre.length])) ∧
    (∀ post, s.codec.rxbuf = 0x02#8 :: post → post.length = 7 → b ≠ 0x03#8 → exec (.rxByte b) s =
      .next (after s { s.codec with rxbuf := post ++ [b], cntSyncDrop := s.codec.cntSyncDrop + 1#32 }
        .ok .syncDrop [1#8])) ∧
    (∀ m e d1 d2 d3 h l, s.codec.rxbuf = [0x02#8, m, e, d1, d2, d3, h, l] → b = 0x03#8 →
      (h = (crc16 [m, e, d1, d2, d3]).extractLsb' 8 8 ∧ l = (crc16 [m, e, d1, d2, d3]).extractLsb' 0 8 →
        exec (.rxByte b) s = .next (after s { s.codec with
          rxbuf := []
          rxFrames := s.codec.rxFrames ++ [⟨m, e, d1, d2, d3⟩]
          cntFramesOk := s.codec.cntFramesOk + 1#32
          keyEvents := s.codec.keyEvents ++ keyEventsOf s.codec m e d1 d2 } .ok .frame [m, e, d1, d2, d3])) ∧
      (¬(h = (crc16 [m, e, d1, d2, d3]).extractLsb' 8 8 ∧ l = (crc16 [m, e, d1, d2, d3]).extractLsb' 0 8) →
        exec (.rxByte b) s = .next (after s { s.codec with
          rxbuf := [], cntCrcErr := s.codec.cntCrcErr + 1#32 } .ok .crcDrop [])))

/-- 42_rx.md R151: one RX.BYTE makes at most one frame decision. -/
def Obligations.OneDecisionPerByte : Prop :=
  ∀ (s : State) (b : Byte), RxBound s → ∃ t r, exec (.rxByte b) s = .next t ∧ t.results = s.results ++ [⟨s.port, r⟩] ∧
    ((r.event = .none ∧ t.codec = { s.codec with rxbuf := t.codec.rxbuf }) ∨
     (r.event = .syncDrop ∧ ∃ n : Nat, 1 ≤ n ∧ n ≤ 9 ∧ r.data = [BitVec.ofNat 8 n] ∧
        t.codec.rxbuf.length + n = s.codec.rxbuf.length + 1 ∧
        t.codec = { s.codec with
          rxbuf := t.codec.rxbuf, cntSyncDrop := s.codec.cntSyncDrop + BitVec.ofNat 32 n }) ∨
     (r.event = .crcDrop ∧ t.codec = { s.codec with rxbuf := [], cntCrcErr := s.codec.cntCrcErr + 1#32 }) ∨
     (r.event = .frame ∧ ∃ p : Payload, ∃ ke : List KeyEvent, ke.length ≤ 1 ∧
        r.data = [p.mod, p.sel, p.d1, p.d2, p.d3] ∧
        t.codec = { s.codec with
          rxbuf := []
          rxFrames := s.codec.rxFrames ++ [p]
          keyEvents := s.codec.keyEvents ++ ke
          cntFramesOk := s.codec.cntFramesOk + 1#32 }))

/-- 42_rx.md R148: RX.BYTE equals the source's `feed` of a one-byte chunk in everything it writes. -/
def Obligations.RxByteEqualsFeedChunk : Prop :=
  ∀ (s : State) (b : Byte), s.codec.linkUp = true → RxBound s →
    ∃ t, exec (.rxByte b) s = .next t ∧ t.codec = feedChunk s.codec [b]

/-- 42_rx.md R149: chunking changes only when bytes are discarded, never which frames are yielded. The byte-serial block and
the source's `feed` over any split of the same bytes agree on frames, key events and the two frame counters, on the buffer
once leading noise is removed, and differ in SYNC_DROP by exactly the difference in that noise. -/
def Obligations.ChunkingKeepsTheFrames : Prop :=
  ∀ (s : State) (chunks : List (List Byte)), s.codec.linkUp = true → RxBound s →
    ∃ t, runOps (chunks.flatten.map .rxByte) s = .next t ∧
      t.codec.rxFrames = (feedAll s.codec chunks).rxFrames ∧ t.codec.keyEvents = (feedAll s.codec chunks).keyEvents ∧
      t.codec.cntFramesOk = (feedAll s.codec chunks).cntFramesOk ∧
      t.codec.cntCrcErr = (feedAll s.codec chunks).cntCrcErr ∧
      stripNoise t.codec.rxbuf = stripNoise (feedAll s.codec chunks).rxbuf ∧
      t.codec.cntSyncDrop + BitVec.ofNat 32 t.codec.rxbuf.length =
        (feedAll s.codec chunks).cntSyncDrop + BitVec.ofNat 32 (feedAll s.codec chunks).rxbuf.length

/-- 42_rx.md R150: leading bytes that are not 0x02 in the buffer do not affect any later frame decision. Two states that differ
only in such bytes and in the counters yield the same frames and key events, and count as many frames and CRC drops, for every
later stream. -/
def Obligations.LeadingNoiseIsInvisible : Prop :=
  ∀ (s : State) (p q b bs : List Byte) (f e d x : Word), s.codec.linkUp = true → 0x02#8 ∉ p → 0x02#8 ∉ q →
    (p ++ b).length ≤ 8 → (q ++ b).length ≤ 8 →
    ∃ t u, runOps (bs.map .rxByte) { s with codec := { s.codec with rxbuf := p ++ b } } = .next t ∧
      runOps (bs.map .rxByte) { s with codec := { s.codec with
        rxbuf := q ++ b, cntFramesOk := f, cntCrcErr := e, cntSyncDrop := d, cntTxDropped := x } } = .next u ∧
      t.codec.rxFrames = u.codec.rxFrames ∧ t.codec.keyEvents = u.codec.keyEvents ∧
      t.codec.cntFramesOk - s.codec.cntFramesOk = u.codec.cntFramesOk - f ∧
      t.codec.cntCrcErr - s.codec.cntCrcErr = u.codec.cntCrcErr - e ∧
      stripNoise t.codec.rxbuf = stripNoise u.codec.rxbuf

/-- 42_rx.md R152: the scanner can lose a valid frame, and can yield a payload that was never sent, when noise before the frame
contains 0x02. The rule's two cases, from any state with the link up and an empty buffer. -/
def Obligations.NoiseCanLoseOrInventAFrame : Prop :=
  ∀ s : State, s.codec.linkUp = true → s.codec.rxbuf = [] →
    (frameCheck [0x02#8, 0x10#8, 0x30#8, 0x13#8, 0x20#8, 0x20#8, 0x1E#8, 0x03#8, 0x03#8] = .ok ∧
      ∃ t r, runOps ([0x02#8, 0x02#8, 0x10#8, 0x30#8, 0x13#8, 0x20#8, 0x20#8, 0x1E#8, 0x03#8].map .rxByte) s = .next t ∧
        t.results.getLast? = some ⟨s.port, r⟩ ∧ r.event = .crcDrop ∧
        ∃ u, exec (.rxByte 0x03#8) t = .next u ∧
          u.codec = { s.codec with rxbuf := [0x03#8], cntCrcErr := s.codec.cntCrcErr + 1#32 }) ∧
    (frameCheck [0x02#8, 0x03#8, 0x3D#8, 0x31#8, 0x05#8, 0x20#8, 0xEB#8, 0x3E#8, 0x03#8] = .ok ∧
      ∃ t, runOps ([0x02#8, 0x3D#8, 0x31#8, 0x31#8, 0x30#8, 0x30#8, 0xE2#8, 0x02#8, 0x03#8, 0x3D#8, 0x31#8, 0x05#8, 0x20#8,
          0xEB#8, 0x3E#8, 0x03#8].map .rxByte) s = .next t ∧
        t.codec.rxFrames = s.codec.rxFrames ++ [⟨0x3D#8, 0x31#8, 0x31#8, 0x30#8, 0x30#8⟩] ∧
        t.codec.cntFramesOk = s.codec.cntFramesOk + 1#32 ∧ t.codec.cntCrcErr = s.codec.cntCrcErr ∧
        t.codec.rxbuf = [0x3D#8, 0x31#8, 0x05#8, 0x20#8, 0xEB#8, 0x3E#8, 0x03#8])

/-- 42_rx.md R153: garbage without 0x02, and then a valid frame, yields exactly that frame's payload, once, with no CRC drop,
and leaves the buffer empty. -/
def Obligations.GarbageThenFrameYieldsIt : Prop :=
  ∀ (s : State) (g f : List Byte), s.codec.linkUp = true → RxBound s → 0x02#8 ∉ s.codec.rxbuf → 0x02#8 ∉ g →
    f.length = 9 → frameCheck f = .ok →
    ∃ t, runOps ((g ++ f).map .rxByte) s = .next t ∧ t.codec.rxFrames = s.codec.rxFrames ++ [payloadOf f] ∧
      t.codec.cntFramesOk = s.codec.cntFramesOk + 1#32 ∧ t.codec.cntCrcErr = s.codec.cntCrcErr ∧ t.codec.rxbuf = []

/-- 42_rx.md R154: two valid frames back to back are both yielded, in order, however the bytes are chunked. -/
def Obligations.TwoFramesYieldBoth : Prop :=
  ∀ (s : State) (f g : List Byte), s.codec.linkUp = true → RxBound s → 0x02#8 ∉ s.codec.rxbuf →
    f.length = 9 → frameCheck f = .ok → g.length = 9 → frameCheck g = .ok →
    (∃ t, runOps ((f ++ g).map .rxByte) s = .next t ∧
      t.codec.rxFrames = s.codec.rxFrames ++ [payloadOf f, payloadOf g] ∧ t.codec.rxbuf = []) ∧
    ∀ chunks : List (List Byte), chunks.flatten = f ++ g →
      (feedAll s.codec chunks).rxFrames = s.codec.rxFrames ++ [payloadOf f, payloadOf g]

/-- 42_rx.md R155: a valid frame fed alone into an empty buffer, with any one bit of its 9 bytes flipped, is never yielded. -/
def Obligations.FlippedFrameNeverYields : Prop :=
  ∀ (s : State) (f : List Byte) (j : Nat), s.codec.linkUp = true → s.codec.rxbuf = [] → f.length = 9 →
    frameCheck f = .ok → j < 72 → ∃ t, runOps ((flipBit f j).map .rxByte) s = .next t ∧ t.codec.rxFrames = s.codec.rxFrames ∧
      t.codec.keyEvents = s.codec.keyEvents ∧ t.codec.cntFramesOk = s.codec.cntFramesOk

/-- 42_rx.md R146 and R147: LINK.UP and LINK.DOWN set the link bit, empty the receive buffer and change nothing else. -/
def Obligations.LinkEventsEmptyTheBuffer : Prop :=
  (∀ rest, decodeOp (0x31#8 :: rest) = .ok (.linkUp, rest)) ∧ (∀ rest, decodeOp (0x32#8 :: rest) = .ok (.linkDown, rest)) ∧
  (∀ s : State, exec .linkUp s = .next (after s { s.codec with linkUp := true, rxbuf := [] } .ok .none [])) ∧
  (∀ s : State, exec .linkDown s = .next (after s { s.codec with linkUp := false, rxbuf := [] } .ok .none []))

/-- 20_memory.md R60: from a LINK.DOWN to the next LINK.UP no byte is received, whatever else is performed, and the buffer is
empty when the link comes up again: no byte delivered before can combine with a byte delivered after.
Nor is anything sent in between (41_tx.md R124, 10_state.md R22). -/
def Obligations.NothingIsReceivedWhileDown : Prop :=
  ∀ (s : State) (is : List Instr), (∀ i ∈ is, i ≠ .linkUp) →
    (∃ t, runOps (.linkDown :: is) s = .next t ∧ t.codec.linkUp = false ∧ t.codec.rxbuf = [] ∧
      t.codec.rxFrames = s.codec.rxFrames ∧ t.codec.keyEvents = s.codec.keyEvents ∧
      t.codec.txStream = s.codec.txStream) ∧
    ∃ u, runOps (.linkDown :: is ++ [.linkUp]) s = .next u ∧ u.codec.linkUp = true ∧ u.codec.rxbuf = []

/-! ### Decode -/

/-- 43_decode.md R170 and R171: DEC tests STX, then ETX, then the CRC; the first test that fails gives the status, and a frame
that passes all gives its payload. No state changes. -/
def Obligations.DecTestsInOrder : Prop :=
  (∀ b0 b1 b2 b3 b4 b5 b6 b7 b8 rest, decodeOp (0x40#8 :: b0 :: b1 :: b2 :: b3 :: b4 :: b5 :: b6 :: b7 :: b8 :: rest) =
    .ok (.dec b0 b1 b2 b3 b4 b5 b6 b7 b8, rest)) ∧
  ∀ (s : State) (b0 b1 b2 b3 b4 b5 b6 b7 b8 : Byte),
    let answers := fun (st : Status) (data : List Byte) =>
      exec (.dec b0 b1 b2 b3 b4 b5 b6 b7 b8) s = .next (after s s.codec st .none data)
    let c := crc16 [b1, b2, b3, b4, b5]
    (b0 ≠ 0x02#8 → answers .eBadStx []) ∧
    (b0 = 0x02#8 → b8 ≠ 0x03#8 → answers .eBadEtx []) ∧
    (b0 = 0x02#8 → b8 = 0x03#8 → b6 ≠ c.extractLsb' 8 8 ∨ b7 ≠ c.extractLsb' 0 8 → answers .eCrc []) ∧
    (b0 = 0x02#8 → b8 = 0x03#8 → b6 = c.extractLsb' 8 8 → b7 = c.extractLsb' 0 8 → answers .ok [b1, b2, b3, b4, b5])

/-- 41_tx.md R125: the frame of every payload is valid, DEC returns the payload, and the receive scanner from an empty buffer
yields exactly the payload and nothing else. -/
def Obligations.EncodedFrameRoundTrips : Prop :=
  ∀ (s : State) (m e d1 d2 d3 : Byte), frameCheck (frameEncode ⟨m, e, d1, d2, d3⟩) = .ok ∧
    (∀ h l, frameEncode ⟨m, e, d1, d2, d3⟩ = [0x02#8, m, e, d1, d2, d3, h, l, 0x03#8] →
      exec (.dec 0x02#8 m e d1 d2 d3 h l 0x03#8) s = .next (after s s.codec .ok .none [m, e, d1, d2, d3])) ∧
    (s.codec.linkUp = true → s.codec.rxbuf = [] →
      ∃ t, runOps ((frameEncode ⟨m, e, d1, d2, d3⟩).map .rxByte) s = .next t ∧ t.codec = { s.codec with
        rxFrames := s.codec.rxFrames ++ [⟨m, e, d1, d2, d3⟩]
        cntFramesOk := s.codec.cntFramesOk + 1#32
        keyEvents := s.codec.keyEvents ++ keyEventsOf s.codec m e d1 d2 })

/-- 43_decode.md R172: DEC of 9 bytes returns OK with payload p exactly when the scanner, fed them from an empty buffer with
the link up, yields p. -/
def Obligations.DecAgreesWithTheScanner : Prop :=
  ∀ (s : State) (b0 b1 b2 b3 b4 b5 b6 b7 b8 m e d1 d2 d3 : Byte), s.codec.linkUp = true → s.codec.rxbuf = [] →
    (exec (.dec b0 b1 b2 b3 b4 b5 b6 b7 b8) s = .next (after s s.codec .ok .none [m, e, d1, d2, d3]) ↔
      ∃ t, runOps ([b0, b1, b2, b3, b4, b5, b6, b7, b8].map .rxByte) s = .next t ∧
        t.codec.rxFrames = s.codec.rxFrames ++ [⟨m, e, d1, d2, d3⟩])

/-- 43_decode.md R173 and R175: KEYDEC tests MOD and SEL, then DATA1, then the scan table, whatever the table is; DATA3 is not
read and no state changes. -/
def Obligations.KeydecTestsInOrder : Prop :=
  (∀ m e d1 d2 d3 rest, decodeOp (0x41#8 :: m :: e :: d1 :: d2 :: d3 :: rest) = .ok (.keydec m e d1 d2 d3, rest)) ∧
  ∀ (s : State) (m e d1 d2 d3 : Byte),
    let answers := fun (st : Status) (data : List Byte) =>
      exec (.keydec m e d1 d2 d3) s = .next (after s s.codec st .none data)
    (m ≠ s.codec.keyMod ∨ e ≠ s.codec.keySel → answers .nNotKeypad []) ∧
    (m = s.codec.keyMod → e = s.codec.keySel → d1 ≠ 0x31#8 → d1 ≠ 0x30#8 → answers .nBadState []) ∧
    (m = s.codec.keyMod → e = s.codec.keySel → d1 = 0x31#8 ∨ d1 = 0x30#8 →
      match Config.scanTable d2 with
      | none => answers .nUnmapped []
      | some k => answers .ok [k, if d1 = 0x31#8 then 0x01#8 else 0x00#8])

/-- 00_scope.md R10, 43_decode.md R177: the scan table names at least 12 distinct keys (log entry 5 says how the model keeps
this limit with the table free). -/
def Obligations.ScanTableNamesTwelveKeys : Prop :=
  ∃ ks : List KeyIndex, ks.Nodup ∧ 12 ≤ ks.length ∧ ∀ k ∈ ks, ∃ b, Config.scanTable b = some k

/-! ### Wire frames, commutation, pseudo-operations -/

/-- Log entry 3 (the model's choice, from 30_encoding.md R72 and R88): an arriving wire frame is nine RX.BYTE operations of
its bytes in index order. -/
def Obligations.FrameRowsArriveByteByByte : Prop :=
  ∀ (i : Instr) (s : State), i.isFrame = true → exec i s = runOps ((encode i).map .rxByte) s ∧ ∃ t, exec i s = .next t

/-- 30_encoding.md R82 to R85 with 42_rx.md R145 (log entry 3): a well-formed frame row that arrives at an empty buffer on a
live link is yielded, whatever its MOD and SEL, with its key event; one with a wrong CRC is dropped and counted. -/
def Obligations.ArrivingFrameIsYieldedOrDropped : Prop :=
  ∀ (s : State) (i : Instr) (m e d1 d2 d3 h l : Byte), i.isFrame = true → s.codec.linkUp = true → s.codec.rxbuf = [] →
    encode i = [0x02#8, m, e, d1, d2, d3, h, l, 0x03#8] →
    ∃ t, exec i s = .next t ∧
      (i.wellFormed = true → t.codec = { s.codec with
        rxFrames := s.codec.rxFrames ++ [⟨m, e, d1, d2, d3⟩]
        cntFramesOk := s.codec.cntFramesOk + 1#32
        keyEvents := s.codec.keyEvents ++ keyEventsOf s.codec m e d1 d2 }) ∧
      (i.wellFormed = false → t.codec = { s.codec with cntCrcErr := s.codec.cntCrcErr + 1#32 })

/-- 20_memory.md R62: the CRC generator's operations commute with every operation outside their group but REG.READ of CRC_ACC;
ENC commutes with every operation; SETLED and SETBUZ commute with RX.BYTE and not with LINK.UP or LINK.DOWN. -/
def Obligations.DisjointOperationsCommute : Prop :=
  (∀ (i j : Instr) (s : State), inCrcGroup i = true → inCrcGroup j = false → j ≠ .regRead 0x06#8 → CommuteAt i j s) ∧
  (∀ (m e d1 d2 d3 : Byte) (j : Instr) (s : State), CommuteAt (.enc m e d1 d2 d3) j s) ∧
  (∀ (i : Instr) (b : Byte) (s : State), transmits i = true → CommuteAt i (.rxByte b) s) ∧
  (∀ i : Instr, transmits i = true → (∃ s, ¬CommuteAt i .linkUp s) ∧ ∃ s, ¬CommuteAt i .linkDown s)

/-- 30_encoding.md R88: the pseudo-operations expand as the table says, and so `crc.block` computes the CRC, `keyfilter` sets
the filter and `reconnect` leaves a live link with an empty buffer. -/
def Obligations.PseudoOperationsExpand : Prop :=
  (∀ b bs, expand .rxBytes (b :: bs) = some ((b :: bs).map .rxByte)) ∧
  (∀ m e d1 d2 d3, expand .rxFrame [m, e, d1, d2, d3] = some ((frameEncode ⟨m, e, d1, d2, d3⟩).map .rxByte)) ∧
  (∀ b bs, expand .crcBlock (b :: bs) = some (.crcInit :: (b :: bs).map .crcByte)) ∧
  (∀ m e, expand .keyfilter [m, e] = some [.regWrite 0x04#8 0x00#8 0x00#8 m e]) ∧
  expand .reconnect [] = some [.linkDown, .linkUp] ∧
  (∀ (b : Byte) (bs : List Byte) (s : State), ∃ t, runOps (.crcInit :: (b :: bs).map .crcByte) s = .next t ∧
    t.codec = { s.codec with crcAcc := crc16 (b :: bs) }) ∧
  (∀ (m e : Byte) (s : State), ∃ t, runOps [.regWrite 0x04#8 0x00#8 0x00#8 m e] s = .next t ∧
    t.codec = { s.codec with keyMod := m, keySel := e }) ∧
  (∀ s : State, ∃ t, runOps [.linkDown, .linkUp] s = .next t ∧ t.codec = { s.codec with linkUp := true, rxbuf := [] })
end

