-- ==== Sys2Proof/Laws/Operands.lean ====
section
/-! SUPPORT. What the operand helpers do. -/

namespace Sys2Proof.Machine

@[simp] theorem byteAt_cons_zero (x : Byte) (xs : List Byte) : byteAt (x :: xs) 0 = x := rfl
@[simp] theorem byteAt_cons_succ (x : Byte) (xs : List Byte) (n : Nat) : byteAt (x :: xs) (n + 1) = byteAt xs n := rfl

theorem byteAt_append_length (xs : List Byte) (b : Byte) (ys : List Byte) : byteAt (xs ++ b :: ys) xs.length = b := by
  simp [byteAt, List.getD]

/-- No index exactly when the byte does not occur. -/
theorem firstIndex_eq_none (b : Byte) (s : List Byte) : firstIndex b s = none ↔ b ∉ s := by
  induction s with
  | nil => simp [firstIndex]
  | cons x xs ih =>
    by_cases h : x = b
    · simp [firstIndex, h]
    · simp [firstIndex, h, ih, Ne.symm h]

/-- The index found splits the list at the byte's first occurrence. -/
theorem firstIndex_append (b : Byte) (pre post : List Byte) (h : b ∉ pre) :
    firstIndex b (pre ++ b :: post) = some pre.length := by
  induction pre with
  | nil => simp [firstIndex]
  | cons x xs ih =>
    have hx : x ≠ b := fun e => h (by simp [e])
    have := ih (fun hm => h (List.mem_cons_of_mem x hm))
    simp [firstIndex, hx, this]

/-- Every list either lacks the byte or splits at its first occurrence. -/
theorem split_at_first (b : Byte) (s : List Byte) : b ∉ s ∨ ∃ pre post, s = pre ++ b :: post ∧ b ∉ pre := by
  by_cases h : b ∈ s
  · obtain ⟨pre, post, hs, hp⟩ := List.eq_append_cons_of_mem h
    exact .inr ⟨pre, post, hs, hp⟩
  · exact .inl h

/-! ### Fields of a value put together from parts -/

/-- A field inside the low part. -/
theorem extract_append_low {n m : Nat} (x : BitVec n) (y : BitVec m) (s l : Nat) (h : s + l ≤ m) :
    (x ++ y).extractLsb' s l = y.extractLsb' s l := by
  apply BitVec.eq_of_getLsbD_eq
  intro i hi
  have : s + i < m := by omega
  simp only [BitVec.getLsbD_extractLsb', BitVec.getLsbD_append, this, if_true]

/-- A field inside the high part. -/
theorem extract_append_high {n m : Nat} (x : BitVec n) (y : BitVec m) (s l : Nat) (h : m ≤ s) :
    (x ++ y).extractLsb' s l = x.extractLsb' (s - m) l := by
  apply BitVec.eq_of_getLsbD_eq
  intro i hi
  have : ¬(s + i < m) := by omega
  simp only [BitVec.getLsbD_extractLsb', BitVec.getLsbD_append, this, if_false,
    show s + i - m = s - m + i by omega]

/-- The field that is the whole value. -/
theorem extract_all {n : Nat} (x : BitVec n) : x.extractLsb' 0 n = x := by
  apply BitVec.eq_of_getLsbD_eq
  intro i hi
  simp only [BitVec.getLsbD_extractLsb', hi, decide_true, Bool.true_and, Nat.zero_add]

@[simp] theorem word32_byte3 (a b c d : Byte) : (word32 a b c d).extractLsb' 24 8 = a := by
  unfold word32
  rw [extract_append_high _ _ _ _ (by omega), extract_append_high _ _ _ _ (by omega),
    extract_append_high _ _ _ _ (by omega), extract_all]

@[simp] theorem word32_byte2 (a b c d : Byte) : (word32 a b c d).extractLsb' 16 8 = b := by
  unfold word32
  rw [extract_append_high _ _ _ _ (by omega), extract_append_high _ _ _ _ (by omega),
    extract_append_low _ _ _ _ (by omega), extract_all]

@[simp] theorem word32_byte1 (a b c d : Byte) : (word32 a b c d).extractLsb' 8 8 = c := by
  unfold word32
  rw [extract_append_high _ _ _ _ (by omega), extract_append_low _ _ _ _ (by omega), extract_all]

@[simp] theorem word32_byte0 (a b c d : Byte) : (word32 a b c d).extractLsb' 0 8 = d := by
  unfold word32
  rw [extract_append_low _ _ _ _ (by omega), extract_all]

/-- The bytes of a value made of four bytes are those bytes. -/
@[simp] theorem bytes32_word32 (a b c d : Byte) : bytes32 (word32 a b c d) = [a, b, c, d] := by
  simp [bytes32]

/-- A 16-bit value in the low half of a register has zero bytes above it. -/
theorem bytes32_setWidth (a b : Byte) : bytes32 ((a ++ b).setWidth 32) = [0#8, 0#8, a, b] := by
  have : ((a ++ b).setWidth 32 : Word) = word32 0#8 0#8 a b := by
    unfold word32
    apply BitVec.eq_of_getLsbD_eq
    intro i hi
    simp only [BitVec.getLsbD_setWidth, BitVec.getLsbD_append, hi, decide_true, Bool.true_and]
    by_cases h : i < 8
    · simp only [h, if_true]
    · by_cases h' : i - 8 < 8
      · simp only [h, h', if_true, if_false]
      · simp only [h, h', if_false, BitVec.getLsbD_zero, ite_self]
        exact BitVec.getLsbD_of_ge a _ (by omega)
  rw [this, bytes32_word32]

/-- Shifting the low byte out leaves the high byte. -/
theorem half_shift (x : Half) : x >>> 8 = (hi x).setWidth 16 := by
  apply BitVec.eq_of_toNat_eq
  simp [hi, BitVec.extractLsb', Nat.shiftRight_eq_div_pow]
  omega

/-- A byte XORed into the low byte leaves the high byte. -/
theorem hi_xor_byte (c : Half) (b : Byte) : hi (c ^^^ b.setWidth 16) = hi c := by
  apply BitVec.eq_of_getLsbD_eq
  intro i hi'
  simp [hi, hi', BitVec.getLsbD_setWidth]

end Sys2Proof.Machine
end

