-- ==== Sys2Proof/Laws/State.lean ====
section
/-! SUPPORT. The read of every field after every named update of the block and of the machine, each true by unfolding. -/

namespace Sys2Proof.Machine

namespace Codec

@[simp] theorem setRxbuf_rxbuf (c : Codec) (b : List Byte) : (c.setRxbuf b).rxbuf = b := rfl
@[simp] theorem setRxbuf_linkUp (c : Codec) (b : List Byte) : (c.setRxbuf b).linkUp = c.linkUp := rfl
@[simp] theorem setRxbuf_crcAcc (c : Codec) (b : List Byte) : (c.setRxbuf b).crcAcc = c.crcAcc := rfl
@[simp] theorem setRxbuf_keyMod (c : Codec) (b : List Byte) : (c.setRxbuf b).keyMod = c.keyMod := rfl
@[simp] theorem setRxbuf_keySel (c : Codec) (b : List Byte) : (c.setRxbuf b).keySel = c.keySel := rfl
@[simp] theorem setRxbuf_cntFramesOk (c : Codec) (b : List Byte) : (c.setRxbuf b).cntFramesOk = c.cntFramesOk := rfl
@[simp] theorem setRxbuf_cntCrcErr (c : Codec) (b : List Byte) : (c.setRxbuf b).cntCrcErr = c.cntCrcErr := rfl
@[simp] theorem setRxbuf_cntSyncDrop (c : Codec) (b : List Byte) : (c.setRxbuf b).cntSyncDrop = c.cntSyncDrop := rfl
@[simp] theorem setRxbuf_cntTxDropped (c : Codec) (b : List Byte) : (c.setRxbuf b).cntTxDropped = c.cntTxDropped := rfl
@[simp] theorem setRxbuf_txStream (c : Codec) (b : List Byte) : (c.setRxbuf b).txStream = c.txStream := rfl
@[simp] theorem setRxbuf_rxFrames (c : Codec) (b : List Byte) : (c.setRxbuf b).rxFrames = c.rxFrames := rfl
@[simp] theorem setRxbuf_keyEvents (c : Codec) (b : List Byte) : (c.setRxbuf b).keyEvents = c.keyEvents := rfl

@[simp] theorem setLink_rxbuf (c : Codec) (v : Bool) : (c.setLink v).rxbuf = [] := rfl
@[simp] theorem setLink_linkUp (c : Codec) (v : Bool) : (c.setLink v).linkUp = v := rfl
@[simp] theorem setLink_crcAcc (c : Codec) (v : Bool) : (c.setLink v).crcAcc = c.crcAcc := rfl
@[simp] theorem setLink_keyMod (c : Codec) (v : Bool) : (c.setLink v).keyMod = c.keyMod := rfl
@[simp] theorem setLink_keySel (c : Codec) (v : Bool) : (c.setLink v).keySel = c.keySel := rfl
@[simp] theorem setLink_cntFramesOk (c : Codec) (v : Bool) : (c.setLink v).cntFramesOk = c.cntFramesOk := rfl
@[simp] theorem setLink_cntCrcErr (c : Codec) (v : Bool) : (c.setLink v).cntCrcErr = c.cntCrcErr := rfl
@[simp] theorem setLink_cntSyncDrop (c : Codec) (v : Bool) : (c.setLink v).cntSyncDrop = c.cntSyncDrop := rfl
@[simp] theorem setLink_cntTxDropped (c : Codec) (v : Bool) : (c.setLink v).cntTxDropped = c.cntTxDropped := rfl
@[simp] theorem setLink_txStream (c : Codec) (v : Bool) : (c.setLink v).txStream = c.txStream := rfl
@[simp] theorem setLink_rxFrames (c : Codec) (v : Bool) : (c.setLink v).rxFrames = c.rxFrames := rfl
@[simp] theorem setLink_keyEvents (c : Codec) (v : Bool) : (c.setLink v).keyEvents = c.keyEvents := rfl

@[simp] theorem setCrcAcc_rxbuf (c : Codec) (v : Half) : (c.setCrcAcc v).rxbuf = c.rxbuf := rfl
@[simp] theorem setCrcAcc_linkUp (c : Codec) (v : Half) : (c.setCrcAcc v).linkUp = c.linkUp := rfl
@[simp] theorem setCrcAcc_crcAcc (c : Codec) (v : Half) : (c.setCrcAcc v).crcAcc = v := rfl
@[simp] theorem setCrcAcc_keyMod (c : Codec) (v : Half) : (c.setCrcAcc v).keyMod = c.keyMod := rfl
@[simp] theorem setCrcAcc_keySel (c : Codec) (v : Half) : (c.setCrcAcc v).keySel = c.keySel := rfl
@[simp] theorem setCrcAcc_cntFramesOk (c : Codec) (v : Half) : (c.setCrcAcc v).cntFramesOk = c.cntFramesOk := rfl
@[simp] theorem setCrcAcc_cntCrcErr (c : Codec) (v : Half) : (c.setCrcAcc v).cntCrcErr = c.cntCrcErr := rfl
@[simp] theorem setCrcAcc_cntSyncDrop (c : Codec) (v : Half) : (c.setCrcAcc v).cntSyncDrop = c.cntSyncDrop := rfl
@[simp] theorem setCrcAcc_cntTxDropped (c : Codec) (v : Half) : (c.setCrcAcc v).cntTxDropped = c.cntTxDropped := rfl
@[simp] theorem setCrcAcc_txStream (c : Codec) (v : Half) : (c.setCrcAcc v).txStream = c.txStream := rfl
@[simp] theorem setCrcAcc_rxFrames (c : Codec) (v : Half) : (c.setCrcAcc v).rxFrames = c.rxFrames := rfl
@[simp] theorem setCrcAcc_keyEvents (c : Codec) (v : Half) : (c.setCrcAcc v).keyEvents = c.keyEvents := rfl

@[simp] theorem setKeyFilter_rxbuf (c : Codec) (m s : Byte) : (c.setKeyFilter m s).rxbuf = c.rxbuf := rfl
@[simp] theorem setKeyFilter_linkUp (c : Codec) (m s : Byte) : (c.setKeyFilter m s).linkUp = c.linkUp := rfl
@[simp] theorem setKeyFilter_crcAcc (c : Codec) (m s : Byte) : (c.setKeyFilter m s).crcAcc = c.crcAcc := rfl
@[simp] theorem setKeyFilter_keyMod (c : Codec) (m s : Byte) : (c.setKeyFilter m s).keyMod = m := rfl
@[simp] theorem setKeyFilter_keySel (c : Codec) (m s : Byte) : (c.setKeyFilter m s).keySel = s := rfl
@[simp] theorem setKeyFilter_cntFramesOk (c : Codec) (m s : Byte) : (c.setKeyFilter m s).cntFramesOk = c.cntFramesOk := rfl
@[simp] theorem setKeyFilter_cntCrcErr (c : Codec) (m s : Byte) : (c.setKeyFilter m s).cntCrcErr = c.cntCrcErr := rfl
@[simp] theorem setKeyFilter_cntSyncDrop (c : Codec) (m s : Byte) : (c.setKeyFilter m s).cntSyncDrop = c.cntSyncDrop := rfl
@[simp] theorem setKeyFilter_cntTxDropped (c : Codec) (m s : Byte) : (c.setKeyFilter m s).cntTxDropped = c.cntTxDropped := rfl
@[simp] theorem setKeyFilter_txStream (c : Codec) (m s : Byte) : (c.setKeyFilter m s).txStream = c.txStream := rfl
@[simp] theorem setKeyFilter_rxFrames (c : Codec) (m s : Byte) : (c.setKeyFilter m s).rxFrames = c.rxFrames := rfl
@[simp] theorem setKeyFilter_keyEvents (c : Codec) (m s : Byte) : (c.setKeyFilter m s).keyEvents = c.keyEvents := rfl

@[simp] theorem emitTx_rxbuf (c : Codec) (x : List Byte) : (c.emitTx x).rxbuf = c.rxbuf := rfl
@[simp] theorem emitTx_linkUp (c : Codec) (x : List Byte) : (c.emitTx x).linkUp = c.linkUp := rfl
@[simp] theorem emitTx_crcAcc (c : Codec) (x : List Byte) : (c.emitTx x).crcAcc = c.crcAcc := rfl
@[simp] theorem emitTx_keyMod (c : Codec) (x : List Byte) : (c.emitTx x).keyMod = c.keyMod := rfl
@[simp] theorem emitTx_keySel (c : Codec) (x : List Byte) : (c.emitTx x).keySel = c.keySel := rfl
@[simp] theorem emitTx_cntFramesOk (c : Codec) (x : List Byte) : (c.emitTx x).cntFramesOk = c.cntFramesOk := rfl
@[simp] theorem emitTx_cntCrcErr (c : Codec) (x : List Byte) : (c.emitTx x).cntCrcErr = c.cntCrcErr := rfl
@[simp] theorem emitTx_cntSyncDrop (c : Codec) (x : List Byte) : (c.emitTx x).cntSyncDrop = c.cntSyncDrop := rfl
@[simp] theorem emitTx_cntTxDropped (c : Codec) (x : List Byte) : (c.emitTx x).cntTxDropped = c.cntTxDropped := rfl
@[simp] theorem emitTx_txStream (c : Codec) (x : List Byte) : (c.emitTx x).txStream = c.txStream ++ x := rfl
@[simp] theorem emitTx_rxFrames (c : Codec) (x : List Byte) : (c.emitTx x).rxFrames = c.rxFrames := rfl
@[simp] theorem emitTx_keyEvents (c : Codec) (x : List Byte) : (c.emitTx x).keyEvents = c.keyEvents := rfl

@[simp] theorem emitFrame_rxbuf (c : Codec) (p : Payload) : (c.emitFrame p).rxbuf = c.rxbuf := rfl
@[simp] theorem emitFrame_linkUp (c : Codec) (p : Payload) : (c.emitFrame p).linkUp = c.linkUp := rfl
@[simp] theorem emitFrame_crcAcc (c : Codec) (p : Payload) : (c.emitFrame p).crcAcc = c.crcAcc := rfl
@[simp] theorem emitFrame_keyMod (c : Codec) (p : Payload) : (c.emitFrame p).keyMod = c.keyMod := rfl
@[simp] theorem emitFrame_keySel (c : Codec) (p : Payload) : (c.emitFrame p).keySel = c.keySel := rfl
@[simp] theorem emitFrame_cntFramesOk (c : Codec) (p : Payload) : (c.emitFrame p).cntFramesOk = c.cntFramesOk := rfl
@[simp] theorem emitFrame_cntCrcErr (c : Codec) (p : Payload) : (c.emitFrame p).cntCrcErr = c.cntCrcErr := rfl
@[simp] theorem emitFrame_cntSyncDrop (c : Codec) (p : Payload) : (c.emitFrame p).cntSyncDrop = c.cntSyncDrop := rfl
@[simp] theorem emitFrame_cntTxDropped (c : Codec) (p : Payload) : (c.emitFrame p).cntTxDropped = c.cntTxDropped := rfl
@[simp] theorem emitFrame_txStream (c : Codec) (p : Payload) : (c.emitFrame p).txStream = c.txStream := rfl
@[simp] theorem emitFrame_rxFrames (c : Codec) (p : Payload) : (c.emitFrame p).rxFrames = c.rxFrames ++ [p] := rfl
@[simp] theorem emitFrame_keyEvents (c : Codec) (p : Payload) : (c.emitFrame p).keyEvents = c.keyEvents := rfl

@[simp] theorem emitKeys_rxbuf (c : Codec) (es : List KeyEvent) : (c.emitKeys es).rxbuf = c.rxbuf := rfl
@[simp] theorem emitKeys_linkUp (c : Codec) (es : List KeyEvent) : (c.emitKeys es).linkUp = c.linkUp := rfl
@[simp] theorem emitKeys_crcAcc (c : Codec) (es : List KeyEvent) : (c.emitKeys es).crcAcc = c.crcAcc := rfl
@[simp] theorem emitKeys_keyMod (c : Codec) (es : List KeyEvent) : (c.emitKeys es).keyMod = c.keyMod := rfl
@[simp] theorem emitKeys_keySel (c : Codec) (es : List KeyEvent) : (c.emitKeys es).keySel = c.keySel := rfl
@[simp] theorem emitKeys_cntFramesOk (c : Codec) (es : List KeyEvent) : (c.emitKeys es).cntFramesOk = c.cntFramesOk := rfl
@[simp] theorem emitKeys_cntCrcErr (c : Codec) (es : List KeyEvent) : (c.emitKeys es).cntCrcErr = c.cntCrcErr := rfl
@[simp] theorem emitKeys_cntSyncDrop (c : Codec) (es : List KeyEvent) : (c.emitKeys es).cntSyncDrop = c.cntSyncDrop := rfl
@[simp] theorem emitKeys_cntTxDropped (c : Codec) (es : List KeyEvent) : (c.emitKeys es).cntTxDropped = c.cntTxDropped := rfl
@[simp] theorem emitKeys_txStream (c : Codec) (es : List KeyEvent) : (c.emitKeys es).txStream = c.txStream := rfl
@[simp] theorem emitKeys_rxFrames (c : Codec) (es : List KeyEvent) : (c.emitKeys es).rxFrames = c.rxFrames := rfl
@[simp] theorem emitKeys_keyEvents (c : Codec) (es : List KeyEvent) : (c.emitKeys es).keyEvents = c.keyEvents ++ es := rfl

@[simp] theorem countFrameOk_rxbuf (c : Codec) : (c.countFrameOk).rxbuf = c.rxbuf := rfl
@[simp] theorem countFrameOk_linkUp (c : Codec) : (c.countFrameOk).linkUp = c.linkUp := rfl
@[simp] theorem countFrameOk_crcAcc (c : Codec) : (c.countFrameOk).crcAcc = c.crcAcc := rfl
@[simp] theorem countFrameOk_keyMod (c : Codec) : (c.countFrameOk).keyMod = c.keyMod := rfl
@[simp] theorem countFrameOk_keySel (c : Codec) : (c.countFrameOk).keySel = c.keySel := rfl
@[simp] theorem countFrameOk_cntFramesOk (c : Codec) : (c.countFrameOk).cntFramesOk = c.cntFramesOk + 1#32 := rfl
@[simp] theorem countFrameOk_cntCrcErr (c : Codec) : (c.countFrameOk).cntCrcErr = c.cntCrcErr := rfl
@[simp] theorem countFrameOk_cntSyncDrop (c : Codec) : (c.countFrameOk).cntSyncDrop = c.cntSyncDrop := rfl
@[simp] theorem countFrameOk_cntTxDropped (c : Codec) : (c.countFrameOk).cntTxDropped = c.cntTxDropped := rfl
@[simp] theorem countFrameOk_txStream (c : Codec) : (c.countFrameOk).txStream = c.txStream := rfl
@[simp] theorem countFrameOk_rxFrames (c : Codec) : (c.countFrameOk).rxFrames = c.rxFrames := rfl
@[simp] theorem countFrameOk_keyEvents (c : Codec) : (c.countFrameOk).keyEvents = c.keyEvents := rfl

@[simp] theorem countCrcErr_rxbuf (c : Codec) : (c.countCrcErr).rxbuf = c.rxbuf := rfl
@[simp] theorem countCrcErr_linkUp (c : Codec) : (c.countCrcErr).linkUp = c.linkUp := rfl
@[simp] theorem countCrcErr_crcAcc (c : Codec) : (c.countCrcErr).crcAcc = c.crcAcc := rfl
@[simp] theorem countCrcErr_keyMod (c : Codec) : (c.countCrcErr).keyMod = c.keyMod := rfl
@[simp] theorem countCrcErr_keySel (c : Codec) : (c.countCrcErr).keySel = c.keySel := rfl
@[simp] theorem countCrcErr_cntFramesOk (c : Codec) : (c.countCrcErr).cntFramesOk = c.cntFramesOk := rfl
@[simp] theorem countCrcErr_cntCrcErr (c : Codec) : (c.countCrcErr).cntCrcErr = c.cntCrcErr + 1#32 := rfl
@[simp] theorem countCrcErr_cntSyncDrop (c : Codec) : (c.countCrcErr).cntSyncDrop = c.cntSyncDrop := rfl
@[simp] theorem countCrcErr_cntTxDropped (c : Codec) : (c.countCrcErr).cntTxDropped = c.cntTxDropped := rfl
@[simp] theorem countCrcErr_txStream (c : Codec) : (c.countCrcErr).txStream = c.txStream := rfl
@[simp] theorem countCrcErr_rxFrames (c : Codec) : (c.countCrcErr).rxFrames = c.rxFrames := rfl
@[simp] theorem countCrcErr_keyEvents (c : Codec) : (c.countCrcErr).keyEvents = c.keyEvents := rfl

@[simp] theorem countSyncDrop_rxbuf (c : Codec) (n : Nat) : (c.countSyncDrop n).rxbuf = c.rxbuf := rfl
@[simp] theorem countSyncDrop_linkUp (c : Codec) (n : Nat) : (c.countSyncDrop n).linkUp = c.linkUp := rfl
@[simp] theorem countSyncDrop_crcAcc (c : Codec) (n : Nat) : (c.countSyncDrop n).crcAcc = c.crcAcc := rfl
@[simp] theorem countSyncDrop_keyMod (c : Codec) (n : Nat) : (c.countSyncDrop n).keyMod = c.keyMod := rfl
@[simp] theorem countSyncDrop_keySel (c : Codec) (n : Nat) : (c.countSyncDrop n).keySel = c.keySel := rfl
@[simp] theorem countSyncDrop_cntFramesOk (c : Codec) (n : Nat) : (c.countSyncDrop n).cntFramesOk = c.cntFramesOk := rfl
@[simp] theorem countSyncDrop_cntCrcErr (c : Codec) (n : Nat) : (c.countSyncDrop n).cntCrcErr = c.cntCrcErr := rfl
@[simp] theorem countSyncDrop_cntSyncDrop (c : Codec) (n : Nat) : (c.countSyncDrop n).cntSyncDrop = c.cntSyncDrop + BitVec.ofNat 32 n := rfl
@[simp] theorem countSyncDrop_cntTxDropped (c : Codec) (n : Nat) : (c.countSyncDrop n).cntTxDropped = c.cntTxDropped := rfl
@[simp] theorem countSyncDrop_txStream (c : Codec) (n : Nat) : (c.countSyncDrop n).txStream = c.txStream := rfl
@[simp] theorem countSyncDrop_rxFrames (c : Codec) (n : Nat) : (c.countSyncDrop n).rxFrames = c.rxFrames := rfl
@[simp] theorem countSyncDrop_keyEvents (c : Codec) (n : Nat) : (c.countSyncDrop n).keyEvents = c.keyEvents := rfl

@[simp] theorem countTxDropped_rxbuf (c : Codec) : (c.countTxDropped).rxbuf = c.rxbuf := rfl
@[simp] theorem countTxDropped_linkUp (c : Codec) : (c.countTxDropped).linkUp = c.linkUp := rfl
@[simp] theorem countTxDropped_crcAcc (c : Codec) : (c.countTxDropped).crcAcc = c.crcAcc := rfl
@[simp] theorem countTxDropped_keyMod (c : Codec) : (c.countTxDropped).keyMod = c.keyMod := rfl
@[simp] theorem countTxDropped_keySel (c : Codec) : (c.countTxDropped).keySel = c.keySel := rfl
@[simp] theorem countTxDropped_cntFramesOk (c : Codec) : (c.countTxDropped).cntFramesOk = c.cntFramesOk := rfl
@[simp] theorem countTxDropped_cntCrcErr (c : Codec) : (c.countTxDropped).cntCrcErr = c.cntCrcErr := rfl
@[simp] theorem countTxDropped_cntSyncDrop (c : Codec) : (c.countTxDropped).cntSyncDrop = c.cntSyncDrop := rfl
@[simp] theorem countTxDropped_cntTxDropped (c : Codec) : (c.countTxDropped).cntTxDropped = c.cntTxDropped + 1#32 := rfl
@[simp] theorem countTxDropped_txStream (c : Codec) : (c.countTxDropped).txStream = c.txStream := rfl
@[simp] theorem countTxDropped_rxFrames (c : Codec) : (c.countTxDropped).rxFrames = c.rxFrames := rfl
@[simp] theorem countTxDropped_keyEvents (c : Codec) : (c.countTxDropped).keyEvents = c.keyEvents := rfl

@[simp] theorem clearCounters_rxbuf (c : Codec) : (c.clearCounters).rxbuf = c.rxbuf := rfl
@[simp] theorem clearCounters_linkUp (c : Codec) : (c.clearCounters).linkUp = c.linkUp := rfl
@[simp] theorem clearCounters_crcAcc (c : Codec) : (c.clearCounters).crcAcc = c.crcAcc := rfl
@[simp] theorem clearCounters_keyMod (c : Codec) : (c.clearCounters).keyMod = c.keyMod := rfl
@[simp] theorem clearCounters_keySel (c : Codec) : (c.clearCounters).keySel = c.keySel := rfl
@[simp] theorem clearCounters_cntFramesOk (c : Codec) : (c.clearCounters).cntFramesOk = 0#32 := rfl
@[simp] theorem clearCounters_cntCrcErr (c : Codec) : (c.clearCounters).cntCrcErr = 0#32 := rfl
@[simp] theorem clearCounters_cntSyncDrop (c : Codec) : (c.clearCounters).cntSyncDrop = 0#32 := rfl
@[simp] theorem clearCounters_cntTxDropped (c : Codec) : (c.clearCounters).cntTxDropped = 0#32 := rfl
@[simp] theorem clearCounters_txStream (c : Codec) : (c.clearCounters).txStream = c.txStream := rfl
@[simp] theorem clearCounters_rxFrames (c : Codec) : (c.clearCounters).rxFrames = c.rxFrames := rfl
@[simp] theorem clearCounters_keyEvents (c : Codec) : (c.clearCounters).keyEvents = c.keyEvents := rfl

end Codec

namespace State

@[simp] theorem finish_codec (s : State) (c : Codec) (r : Result) : (s.finish c r).codec = c := rfl
@[simp] theorem finish_turns (s : State) (c : Codec) (r : Result) : (s.finish c r).turns = s.turns := rfl
@[simp] theorem finish_hostIn (s : State) (c : Codec) (r : Result) : (s.finish c r).hostIn = s.hostIn := rfl
@[simp] theorem finish_linkIn (s : State) (c : Codec) (r : Result) : (s.finish c r).linkIn = s.linkIn := rfl
@[simp] theorem finish_wireIn (s : State) (c : Codec) (r : Result) : (s.finish c r).wireIn = s.wireIn := rfl
@[simp] theorem finish_port (s : State) (c : Codec) (r : Result) : (s.finish c r).port = s.port := rfl
@[simp] theorem finish_results (s : State) (c : Codec) (r : Result) : (s.finish c r).results = s.results ++ [⟨s.port, r⟩] := rfl

@[simp] theorem perform_codec (s : State) (op : Codec → Codec × Result) : (s.perform op).codec = (op s.codec).1 := rfl
@[simp] theorem perform_turns (s : State) (op : Codec → Codec × Result) : (s.perform op).turns = s.turns := rfl
@[simp] theorem perform_hostIn (s : State) (op : Codec → Codec × Result) : (s.perform op).hostIn = s.hostIn := rfl
@[simp] theorem perform_linkIn (s : State) (op : Codec → Codec × Result) : (s.perform op).linkIn = s.linkIn := rfl
@[simp] theorem perform_wireIn (s : State) (op : Codec → Codec × Result) : (s.perform op).wireIn = s.wireIn := rfl
@[simp] theorem perform_port (s : State) (op : Codec → Codec × Result) : (s.perform op).port = s.port := rfl
@[simp] theorem perform_results (s : State) (op : Codec → Codec × Result) : (s.perform op).results = s.results ++ [⟨s.port, (op s.codec).2⟩] := rfl

@[simp] theorem resetInput_codec (s : State) : (s.resetInput).codec = Codec.reset := rfl
@[simp] theorem resetInput_turns (s : State) : (s.resetInput).turns = s.turns := rfl
@[simp] theorem resetInput_hostIn (s : State) : (s.resetInput).hostIn = s.hostIn := rfl
@[simp] theorem resetInput_linkIn (s : State) : (s.resetInput).linkIn = s.linkIn := rfl
@[simp] theorem resetInput_wireIn (s : State) : (s.resetInput).wireIn = s.wireIn := rfl
@[simp] theorem resetInput_port (s : State) : (s.resetInput).port = s.port := rfl
@[simp] theorem resetInput_results (s : State) : (s.resetInput).results = [] := rfl

end State

end Sys2Proof.Machine
end

