-- ==== Sys2Proof/Laws/Ops.lean ====
section
/-! SUPPORT. What performing an instruction does: every operation is one `perform`, every wire frame a run of RX.BYTE. -/

namespace Sys2Proof.Machine

open Sys2Proof.Safety

/-- What an operation does to the block and returns; a wire-frame row is no operation, and stands here for none. -/
def opOf : Instr → Codec → Codec × Result
  | .nop => fun c => (c, report .ok [])
  | .crcInit => fun c => (c.setCrcAcc crcInitValue, report .ok [])
  | .crcByte b => fun c => (c.setCrcAcc (crc16Update c.crcAcc b), report .ok [])
  | .crcRead => fun c => (c, report .ok (bytes16 c.crcAcc))
  | .enc m e d1 d2 d3 => fun c => (c, report .ok (frameEncode ⟨m, e, d1, d2, d3⟩))
  | .setled a b => transmit (frameEncode (ledPayload a b))
  | .setbuz o => transmit (frameEncode (buzPayload (isOn o)))
  | .rxByte b => rxByteOp b
  | .linkUp => fun c => (c.setLink true, report .ok [])
  | .linkDown => fun c => (c.setLink false, report .ok [])
  | .dec b0 b1 b2 b3 b4 b5 b6 b7 b8 => fun c => (c, decResult [b0, b1, b2, b3, b4, b5, b6, b7, b8])
  | .keydec m e d1 d2 d3 => fun c => (c, keydecResult (c.keydec ⟨m, e, d1, d2, d3⟩))
  | .regRead i => fun c => (c, readResult (readReg c i))
  | .regWrite i v3 v2 v1 v0 => writeReg i (word32 v3 v2 v1 v0)
  | .cntClear => fun c => (c.clearCounters, report .ok [])
  | .illegal _ => fun c => (c, report .eIllegalOp [])
  | .frameSetled _ _ _ _ | .frameSetbuzzer _ _ _ | .frameKeypadReport _ _ _ _ _ => fun c => (c, report .ok [])

/-- An operation is performed as one indivisible step. -/
theorem exec_op (i : Instr) (s : State) (h : i.isFrame = false) : exec i s = .next (s.perform (opOf i)) := by
  cases i <;> first | rfl | simp [Instr.isFrame] at h

/-- A wire frame is its nine bytes, received in index order. -/
theorem exec_frame (i : Instr) (s : State) (h : i.isFrame = true) : exec i s = .next (deliver s (encode i)) := by
  cases i <;> first | rfl | simp [Instr.isFrame] at h

/-- Every instruction completes in every state. -/
theorem exec_completes (i : Instr) (s : State) : ∃ t, exec i s = .next t := by
  cases h : i.isFrame with
  | false => exact ⟨_, exec_op i s h⟩
  | true => exact ⟨_, exec_frame i s h⟩

@[simp] theorem runOps_nil (s : State) : runOps [] s = .next s := rfl

theorem runOps_cons (i : Instr) (is : List Instr) (s t : State) (h : exec i s = .next t) :
    runOps (i :: is) s = runOps is t := by
  simp [runOps, h]

theorem runOps_cons_op (i : Instr) (is : List Instr) (s : State) (h : i.isFrame = false) :
    runOps (i :: is) s = runOps is (s.perform (opOf i)) :=
  runOps_cons i is s _ (exec_op i s h)

theorem runOps_append (is js : List Instr) (s t : State) (h : runOps is s = .next t) :
    runOps (is ++ js) s = runOps js t := by
  induction is generalizing s with
  | nil => simp at h; simp [h]
  | cons i is ih =>
    obtain ⟨u, hu⟩ := exec_completes i s
    rw [runOps_cons i is s u hu] at h
    rw [List.cons_append, runOps_cons _ _ s u hu]
    exact ih u h

/-- Every run of instructions completes. -/
theorem runOps_completes (is : List Instr) (s : State) : ∃ t, runOps is s = .next t := by
  induction is generalizing s with
  | nil => exact ⟨s, rfl⟩
  | cons i is ih =>
    obtain ⟨u, hu⟩ := exec_completes i s
    rw [runOps_cons i is s u hu]
    exact ih u

/-- A run of RX.BYTE operations is `deliver`. -/
theorem runOps_rxBytes (bs : List Byte) (s : State) : runOps (bs.map .rxByte) s = .next (deliver s bs) := by
  induction bs generalizing s with
  | nil => rfl
  | cons b bs ih => exact ih (s.perform (rxByteOp b))

@[simp] theorem deliver_nil (s : State) : deliver s [] = s := rfl
@[simp] theorem deliver_cons (s : State) (b : Byte) (bs : List Byte) :
    deliver s (b :: bs) = deliver (s.perform (rxByteOp b)) bs := rfl

/-- What a run of RX.BYTE leaves in the block. -/
@[simp] theorem deliver_codec (bs : List Byte) (s : State) : (deliver s bs).codec = receive s.codec bs := by
  induction bs generalizing s with
  | nil => rfl
  | cons b bs ih => exact ih (s.perform (rxByteOp b))

/-- A run of RX.BYTE touches nothing but the block and the returned results, and returns one record for each byte, to the
port that delivered them. -/
theorem deliver_frame (bs : List Byte) (s : State) :
    (deliver s bs).turns = s.turns ∧ (deliver s bs).hostIn = s.hostIn ∧ (deliver s bs).linkIn = s.linkIn ∧
      (deliver s bs).wireIn = s.wireIn ∧ (deliver s bs).port = s.port := by
  induction bs generalizing s with
  | nil => simp
  | cons b bs ih => simpa using ih (s.perform (rxByteOp b))

/-- The records that receiving bytes returns. -/
def rxResults : Codec → List Byte → List Result
  | _, [] => []
  | c, b :: bs => (rxByteOp b c).2 :: rxResults (rxByteOp b c).1 bs

@[simp] theorem rxResults_length (bs : List Byte) (c : Codec) : (rxResults c bs).length = bs.length := by
  induction bs generalizing c with
  | nil => rfl
  | cons b bs ih => simp [rxResults, ih]

theorem deliver_results (bs : List Byte) (s : State) :
    (deliver s bs).results = s.results ++ (rxResults s.codec bs).map fun r => ⟨s.port, r⟩ := by
  induction bs generalizing s with
  | nil => simp [rxResults]
  | cons b bs ih => simp [rxResults, ih]

/-- The whole state after a run of RX.BYTE. -/
theorem deliver_eq (bs : List Byte) (s : State) : deliver s bs =
    { s with codec := receive s.codec bs, results := s.results ++ (rxResults s.codec bs).map fun r => ⟨s.port, r⟩ } := by
  obtain ⟨h1, h2, h3, h4, h5⟩ := deliver_frame bs s
  have h6 := deliver_codec bs s
  have h7 := deliver_results bs s
  rcases hd : deliver s bs with ⟨c, tu, hi, li, wi, p, r⟩
  rw [hd] at h1 h2 h3 h4 h5 h6 h7
  simp only at h1 h2 h3 h4 h5 h6 h7
  subst h1 h2 h3 h4 h5 h6 h7
  rfl

/-- What an instruction does to the block, operation or frame. -/
def codecAfter (i : Instr) (c : Codec) : Codec := if i.isFrame then receive c (encode i) else (opOf i c).1

/-- The records an instruction returns, operation or frame. -/
def recordsOf (i : Instr) (c : Codec) : List Result := if i.isFrame then rxResults c (encode i) else [(opOf i c).2]

/-- Everything an instruction can do: it changes the block and returns records to the port that delivered it, both
functions of the block alone, and changes nothing else. -/
theorem exec_eq (i : Instr) (s : State) : exec i s = .next { s with
    codec := codecAfter i s.codec, results := s.results ++ (recordsOf i s.codec).map fun r => ⟨s.port, r⟩ } := by
  cases h : i.isFrame with
  | false => rw [exec_op i s h]; simp [codecAfter, recordsOf, h, State.perform, State.finish]
  | true => rw [exec_frame i s h, deliver_eq]; simp [codecAfter, recordsOf, h]

end Sys2Proof.Machine
end

