-- ==== Sys2Proof/Laws/Rx.lean ====
section
/-! SUPPORT. What one received byte can do (42_rx.md R144), and what a key event touches. -/

namespace Sys2Proof.Machine

open Sys2Proof.Safety

/-- A key event appends to `key_events` what the filter and the table say, and changes nothing else. -/
theorem keyEvent_eq (c : Codec) (p : Payload) :
    c.keyEvent p = { c with keyEvents := c.keyEvents ++ keyEventsOf c p.mod p.sel p.d1 p.d2 } := by
  have key : ∀ (o : Option KeyIndex), c.emitKeys (match (if p.mod ≠ c.keyMod ∨ p.sel ≠ c.keySel then .error .nNotKeypad
      else if p.d1 ≠ codeDown ∧ p.d1 ≠ codeUp then .error .nBadState
      else match o with
        | none => .error .nUnmapped
        | some k => .ok ⟨k, p.d1 == codeDown⟩ : Except Status KeyEvent) with
      | .ok e => [e]
      | .error _ => []) = { c with keyEvents := c.keyEvents ++
        (if p.mod = c.keyMod ∧ p.sel = c.keySel ∧ (p.d1 = 0x31#8 ∨ p.d1 = 0x30#8) then
          match o with
          | some k => [⟨k, p.d1 == 0x31#8⟩]
          | none => []
        else []) } := by
    intro o
    by_cases h1 : p.mod = c.keyMod
    · by_cases h2 : p.sel = c.keySel
      · by_cases h3 : p.d1 = 0x31#8
        · cases o <;> simp [h1, h2, h3, Codec.emitKeys]
        · by_cases h4 : p.d1 = 0x30#8
          · cases o <;> simp [h1, h2, h4, Codec.emitKeys, codeDown, codeUp]
          · simp [h1, h2, h3, h4, codeDown, codeUp, Codec.emitKeys]
      · simp [h2, Codec.emitKeys]
    · simp [h1, Codec.emitKeys]
  exact key (Config.scanTable p.d2)

/-- With the link down a byte changes nothing. -/
theorem rxByteOp_down (b : Byte) (c : Codec) (h : c.linkUp = false) : rxByteOp b c = (c, report .eNotConnected []) := by
  simp [rxByteOp, h]

/-- Below nine bytes the byte is buffered. -/
theorem rxByteOp_short (b : Byte) (c : Codec) (h : c.linkUp = true) (hl : c.rxbuf.length < 8) :
    rxByteOp b c = (c.setRxbuf (c.rxbuf ++ [b]), report .ok []) := by
  have : c.rxbuf.length + 1 < frameLen := by simp [frameLen]; omega
  simp [rxByteOp, h, this]

/-- The ninth byte brings a decision. -/
theorem rxByteOp_nine (b : Byte) (c : Codec) (h : c.linkUp = true) (hl : 8 ≤ c.rxbuf.length) :
    rxByteOp b c = decide9 c (c.rxbuf ++ [b]) := by
  have : ¬(c.rxbuf.length + 1 < frameLen) := by simp [frameLen]; omega
  simp [rxByteOp, h, this]

theorem decide9_noStx (c : Codec) (b : List Byte) (h : stx ∉ b) : decide9 c b = syncDrop c b b.length := by
  simp [decide9, (firstIndex_eq_none stx b).2 h]

theorem decide9_noise (c : Codec) (pre post : List Byte) (hp : pre ≠ []) (h : stx ∉ pre) :
    decide9 c (pre ++ stx :: post) = syncDrop c (pre ++ stx :: post) pre.length := by
  have hl : pre.length ≠ 0 := by simpa using hp
  obtain ⟨n, hn⟩ := Nat.exists_eq_succ_of_ne_zero hl
  simp [decide9, firstIndex_append stx pre post h, hn]

theorem firstIndex_head (b : Byte) (s : List Byte) : firstIndex b (b :: s) = some 0 := by
  simp [firstIndex]

theorem decide9_falseStx (c : Codec) (post : List Byte) (h : byteAt (stx :: post) 8 ≠ etx) :
    decide9 c (stx :: post) = syncDrop c (stx :: post) 1 := by
  unfold decide9
  rw [firstIndex_head]
  exact if_pos h

theorem decide9_candidate (c : Codec) (post : List Byte) (h : byteAt (stx :: post) 8 = etx) :
    decide9 c (stx :: post) =
      completeFrame (c.setRxbuf ((stx :: post).drop frameLen)) ((stx :: post).take frameLen) := by
  unfold decide9
  rw [firstIndex_head]
  exact if_neg (not_not_intro h)

/-- Everything a resync discard does. -/
theorem syncDrop_eq (c : Codec) (b : List Byte) (n : Nat) : syncDrop c b n =
    ({ c with rxbuf := b.drop n, cntSyncDrop := c.cntSyncDrop + BitVec.ofNat 32 n },
      ⟨.ok, .syncDrop, [BitVec.ofNat 8 n]⟩) := rfl

/-- A candidate whose CRC is right is yielded, counted and decoded as a keypad report. -/
theorem completeFrame_right (c : Codec) (f : List Byte) (h : crcRight f = true) : completeFrame c f =
    ({ c with
        rxFrames := c.rxFrames ++ [payloadOf f]
        cntFramesOk := c.cntFramesOk + 1#32
        keyEvents := c.keyEvents ++ keyEventsOf c (byteAt f 1) (byteAt f 2) (byteAt f 3) (byteAt f 4) },
      ⟨.ok, .frame, (payloadOf f).bytes⟩) := by
  simp only [completeFrame, h, if_true, keyEvent_eq]
  rfl

/-- A candidate whose CRC is wrong is dropped and counted. -/
theorem completeFrame_wrong (c : Codec) (f : List Byte) (h : crcRight f = false) : completeFrame c f =
    ({ c with cntCrcErr := c.cntCrcErr + 1#32 }, ⟨.ok, .crcDrop, []⟩) := by
  simp [completeFrame, h, Codec.countCrcErr]

theorem payloadOf_bytes_nine (b0 b1 b2 b3 b4 b5 b6 b7 b8 : Byte) :
    payloadOf [b0, b1, b2, b3, b4, b5, b6, b7, b8] = ⟨b1, b2, b3, b4, b5⟩ := rfl

theorem crcRight_nine (b0 b1 b2 b3 b4 b5 b6 b7 b8 : Byte) : crcRight [b0, b1, b2, b3, b4, b5, b6, b7, b8] = true ↔
    b6 = hi (crc16 [b1, b2, b3, b4, b5]) ∧ b7 = lo (crc16 [b1, b2, b3, b4, b5]) := by
  simp [crcRight, slice]

/-- The one inversion lemma of RX.BYTE: with the link up and at most 8 bytes held, the byte is buffered, or the nine bytes
hold no STX, or noise stands before the first STX, or the STX is false, or a candidate is decided. -/
theorem rxByteOp_cases (b : Byte) (c : Codec) (hup : c.linkUp = true) (hl : c.rxbuf.length ≤ 8) :
    (c.rxbuf.length < 8 ∧ rxByteOp b c = (c.setRxbuf (c.rxbuf ++ [b]), report .ok [])) ∨
    (c.rxbuf.length = 8 ∧ stx ∉ c.rxbuf ++ [b] ∧ rxByteOp b c = syncDrop c (c.rxbuf ++ [b]) 9) ∨
    (∃ pre post, c.rxbuf.length = 8 ∧ pre ≠ [] ∧ stx ∉ pre ∧ c.rxbuf ++ [b] = pre ++ stx :: post ∧
      rxByteOp b c = syncDrop c (pre ++ stx :: post) pre.length) ∨
    (∃ post, post.length = 7 ∧ c.rxbuf = stx :: post ∧ b ≠ etx ∧ rxByteOp b c = syncDrop c (stx :: post ++ [b]) 1) ∨
    (∃ post, post.length = 7 ∧ c.rxbuf = stx :: post ∧ b = etx ∧
      rxByteOp b c = completeFrame (c.setRxbuf []) (stx :: post ++ [etx])) := by
  by_cases h8 : c.rxbuf.length < 8
  · exact .inl ⟨h8, rxByteOp_short b c hup h8⟩
  have h8' : c.rxbuf.length = 8 := by omega
  refine .inr ?_
  rw [rxByteOp_nine b c hup (by omega)]
  obtain hn | ⟨pre, post, hs, hp⟩ := split_at_first stx (c.rxbuf ++ [b])
  · exact .inl ⟨h8', hn, by rw [decide9_noStx _ _ hn]; simp [h8']⟩
  refine .inr ?_
  by_cases hpe : pre = []
  · refine .inr ?_
    subst hpe
    obtain ⟨x, xs, hx⟩ : ∃ x xs, c.rxbuf = x :: xs := by
      cases hc : c.rxbuf with
      | nil => simp [hc] at h8'
      | cons x xs => exact ⟨x, xs, rfl⟩
    rw [hx] at hs h8'
    have hx0 : x = stx := by simpa using (List.cons.inj hs).1
    have hl7 : xs.length = 7 := by simpa using h8'
    subst hx0
    have h9 : byteAt (stx :: (xs ++ [b])) 8 = b := by
      have := byteAt_append_length (stx :: xs) b []
      simpa [hl7] using this
    by_cases hb : b = etx
    · refine .inr ⟨xs, hl7, hx, hb, ?_⟩
      rw [hx, List.cons_append, decide9_candidate _ _ (by rw [h9, hb])]
      have ht : (stx :: (xs ++ [b])).take frameLen = stx :: (xs ++ [b]) :=
        List.take_of_length_le (by simp [frameLen, hl7])
      have hd : (stx :: (xs ++ [b])).drop frameLen = [] := List.drop_of_length_le (by simp [frameLen, hl7])
      rw [ht, hd, hb]
      rfl
    · refine .inl ⟨xs, hl7, hx, hb, ?_⟩
      rw [hx, List.cons_append, decide9_falseStx _ _ (by rw [h9]; exact hb)]
  · exact .inl ⟨pre, post, h8', hpe, hp, hs, by rw [hs, decide9_noise _ _ _ hpe hp]⟩

/-- A received byte keeps the receive buffer's bound (42_rx.md R141). -/
theorem rxByteOp_bound (b : Byte) (c : Codec) (hl : c.rxbuf.length ≤ 8) : (rxByteOp b c).1.rxbuf.length ≤ 8 := by
  cases hup : c.linkUp with
  | false => rw [rxByteOp_down b c hup]; exact hl
  | true =>
    obtain ⟨h, he⟩ | ⟨h, _, he⟩ | ⟨pre, post, h, hp, _, hs, he⟩ | ⟨post, hp, hs, _, he⟩ | ⟨post, hp, hs, _, he⟩ :=
      rxByteOp_cases b c hup hl <;> rw [he]
    · simp; omega
    · simp [syncDrop_eq, h]
    · have := congrArg List.length hs
      have hp' : pre.length ≠ 0 := by simpa using hp
      simp [h] at this
      simp [syncDrop_eq]; omega
    · simp [syncDrop_eq, hp]
    · cases hc : crcRight (stx :: post ++ [etx]) with
      | true => rw [completeFrame_right _ _ hc]; simp
      | false => rw [completeFrame_wrong _ _ hc]; simp

/-- Receiving bytes keeps the bound. -/
theorem receive_bound (bs : List Byte) (c : Codec) (hl : c.rxbuf.length ≤ 8) : (receive c bs).rxbuf.length ≤ 8 := by
  induction bs generalizing c with
  | nil => exact hl
  | cons b bs ih => exact ih _ (rxByteOp_bound b c hl)

@[simp] theorem receive_nil (c : Codec) : receive c [] = c := rfl
@[simp] theorem receive_cons (c : Codec) (b : Byte) (bs : List Byte) :
    receive c (b :: bs) = receive (rxByteOp b c).1 bs := rfl

theorem receive_append (c : Codec) (as bs : List Byte) : receive c (as ++ bs) = receive (receive c as) bs := by
  simp [receive]

/-- Bytes on a down link change nothing. -/
theorem receive_down (bs : List Byte) (c : Codec) (h : c.linkUp = false) : receive c bs = c := by
  induction bs with
  | nil => rfl
  | cons b bs ih => rw [receive_cons, rxByteOp_down b c h]; exact ih

/-- While the buffer has room, bytes are buffered. -/
theorem receive_short (bs : List Byte) (c : Codec) (h : c.linkUp = true) (hl : c.rxbuf.length + bs.length ≤ 8) :
    receive c bs = c.setRxbuf (c.rxbuf ++ bs) := by
  induction bs generalizing c with
  | nil => simp [Codec.setRxbuf]
  | cons b bs ih =>
    simp at hl
    rw [receive_cons, rxByteOp_short b c h (by omega), ih _ (by simpa using h) (by simp; omega)]
    simp [Codec.setRxbuf]

end Sys2Proof.Machine
end

