-- ==== Sys2Proof/Laws/Chunk.lean ====
section
/-! SUPPORT. The receive scanner up to leading noise (42_rx.md R149, R150): `quiet` forgets the noise in front of the buffer
and the count of discarded bytes, and every receive path agrees up to it. -/

namespace Sys2Proof.Machine

open Sys2Proof.Safety

/-- The block without its leading noise and without the count of discarded bytes. -/
def quiet (c : Codec) : Codec := { c with rxbuf := stripNoise c.rxbuf, cntSyncDrop := 0#32 }

theorem stripNoise_noise (p x : List Byte) (h : stx ∉ p) : stripNoise (p ++ x) = stripNoise x := by
  induction p with
  | nil => rfl
  | cons a p ih =>
    have ha : a ≠ stx := fun e => h (by simp [e])
    have := ih (fun hm => h (List.mem_cons_of_mem a hm))
    simpa [stripNoise, ha] using this

@[simp] theorem stripNoise_nil : stripNoise [] = [] := rfl

@[simp] theorem stripNoise_stx (x : List Byte) : stripNoise (stx :: x) = stx :: x := by simp [stripNoise]

theorem stripNoise_none (p : List Byte) (h : stx ∉ p) : stripNoise p = [] := by
  simpa using stripNoise_noise p [] h

/-- A buffer is noise and then what `stripNoise` leaves. -/
theorem noise_split (b : List Byte) : ∃ p, stx ∉ p ∧ b = p ++ stripNoise b := by
  obtain h | ⟨pre, post, hs, hp⟩ := split_at_first stx b
  · exact ⟨b, h, by simp [stripNoise_none b h]⟩
  · exact ⟨pre, hp, by rw [hs, stripNoise_noise _ _ hp, stripNoise_stx]⟩

theorem stripNoise_idem (b : List Byte) : stripNoise (stripNoise b) = stripNoise b := by
  obtain ⟨p, hp, hb⟩ := noise_split b
  have := stripNoise_noise p (stripNoise b) hp
  rw [← hb] at this
  exact this.symm

theorem stripNoise_length (b : List Byte) : (stripNoise b).length ≤ b.length := by
  obtain ⟨p, _, hb⟩ := noise_split b
  have := congrArg List.length hb
  simp at this
  omega

@[simp] theorem quiet_linkUp (c : Codec) : (quiet c).linkUp = c.linkUp := rfl
@[simp] theorem quiet_rxbuf (c : Codec) : (quiet c).rxbuf = stripNoise c.rxbuf := rfl
@[simp] theorem quiet_quiet (c : Codec) : quiet (quiet c) = quiet c := by simp [quiet, stripNoise_idem]

/-- What two blocks that agree up to noise have in common. -/
theorem quiet_eq (c d : Codec) (h : quiet c = quiet d) : c.rxFrames = d.rxFrames ∧ c.keyEvents = d.keyEvents ∧
    c.cntFramesOk = d.cntFramesOk ∧ c.cntCrcErr = d.cntCrcErr ∧ stripNoise c.rxbuf = stripNoise d.rxbuf := by
  have h1 := congrArg Codec.rxFrames h
  have h2 := congrArg Codec.keyEvents h
  have h3 := congrArg Codec.cntFramesOk h
  have h4 := congrArg Codec.cntCrcErr h
  have h5 := congrArg Codec.rxbuf h
  exact ⟨h1, h2, h3, h4, h5⟩

theorem quiet_setRxbuf (c : Codec) (b : List Byte) :
    quiet (c.setRxbuf b) = { quiet c with rxbuf := stripNoise b } := rfl

theorem quiet_syncDrop (c : Codec) (b : List Byte) (n : Nat) :
    quiet (syncDrop c b n).1 = { quiet c with rxbuf := stripNoise (b.drop n) } := rfl

/-- A decided candidate does not look at the buffer or at the discard count. -/
theorem completeFrame_congr (c d : Codec) (f : List Byte) (h : { c with rxbuf := [], cntSyncDrop := 0#32 } =
    { d with rxbuf := [], cntSyncDrop := 0#32 }) :
    (completeFrame c f).1 = { (completeFrame d f).1 with rxbuf := c.rxbuf, cntSyncDrop := c.cntSyncDrop } := by
  rcases c with ⟨cr, cl, ca, cm, cs, c1, c2, c3, c4, ct, cf, ck⟩
  rcases d with ⟨dr, dl, da, dm, ds, d1, d2, d3, d4, dt, df, dk⟩
  simp only [Codec.mk.injEq] at h
  obtain ⟨-, rfl, rfl, rfl, rfl, rfl, rfl, -, rfl, rfl, rfl, rfl⟩ := h
  cases hc : crcRight f with
  | true => rw [completeFrame_right _ _ hc, completeFrame_right _ _ hc]; rfl
  | false => rw [completeFrame_wrong _ _ hc, completeFrame_wrong _ _ hc]

theorem completeFrame_rxbuf (c : Codec) (f : List Byte) : (completeFrame c f).1.rxbuf = c.rxbuf := by
  have := completeFrame_congr c c f rfl
  rw [this]

@[simp] theorem completeFrame_linkUp (c : Codec) (f : List Byte) : (completeFrame c f).1.linkUp = c.linkUp := by
  cases hc : crcRight f with
  | true => rw [completeFrame_right _ _ hc]
  | false => rw [completeFrame_wrong _ _ hc]

@[simp] theorem rxByteOp_linkUp (b : Byte) (c : Codec) : (rxByteOp b c).1.linkUp = c.linkUp := by
  cases hup : c.linkUp with
  | false => rw [rxByteOp_down b c hup]; exact hup
  | true =>
    by_cases hl : c.rxbuf.length < 8
    · rw [rxByteOp_short b c hup hl]; simpa using hup
    · rw [rxByteOp_nine b c hup (by omega)]
      unfold decide9
      split
      · simpa [syncDrop_eq] using hup
      · split
        · simpa [syncDrop_eq] using hup
        · simpa using hup
      · simpa [syncDrop_eq] using hup

@[simp] theorem receive_linkUp (bs : List Byte) (c : Codec) : (receive c bs).linkUp = c.linkUp := by
  induction bs generalizing c with
  | nil => rfl
  | cons b bs ih => rw [receive_cons, ih, rxByteOp_linkUp]

/-- One received byte up to noise: it is the same whether or not the noise is still there. -/
theorem quiet_rxByteOp (b : Byte) (c : Codec) (hup : c.linkUp = true) (hl : c.rxbuf.length ≤ 8) :
    quiet (rxByteOp b c).1 = quiet (rxByteOp b (quiet c)).1 := by
  obtain ⟨p, hp, hb⟩ := noise_split c.rxbuf
  have hlen : c.rxbuf.length = p.length + (stripNoise c.rxbuf).length := by
    have := congrArg List.length hb
    simpa using this
  have hstrip : stripNoise (c.rxbuf ++ [b]) = stripNoise (stripNoise c.rxbuf ++ [b]) := by
    conv_lhs => rw [hb, List.append_assoc, stripNoise_noise _ _ hp]
  have short : (stripNoise c.rxbuf).length < 8 → quiet (rxByteOp b (quiet c)).1 =
      { quiet c with rxbuf := stripNoise (c.rxbuf ++ [b]) } := by
    intro h
    rw [rxByteOp_short b (quiet c) hup h, quiet_setRxbuf, hstrip]
    simp
  obtain ⟨h, he⟩ | ⟨h, hn, he⟩ | ⟨pre, post, h, hpre, hps, hs, he⟩ | ⟨post, h7, hs, hbe, he⟩ | ⟨post, h7, hs, hbe, he⟩ :=
    rxByteOp_cases b c hup hl
  · rw [he, short (by omega)]
    rfl
  · have hnone : stripNoise c.rxbuf = [] := stripNoise_none _ (fun hm => hn (List.mem_append_left _ hm))
    rw [he, short (by simp [hnone]), quiet_syncDrop, stripNoise_none _ hn,
      List.drop_of_length_le (by simp [h])]
    rfl
  · have hshort : (stripNoise c.rxbuf).length < 8 := by
      rcases hpp : p with _ | ⟨x, xs⟩
      · exfalso
        rcases hpre' : pre with _ | ⟨y, ys⟩
        · exact hpre hpre'
        · rw [hpp] at hb
          rw [hpre'] at hs hps
          have hne : c.rxbuf ≠ [] := by intro e; simp [e] at h
          obtain ⟨z, zs, hz⟩ := List.exists_cons_of_ne_nil hne
          have hzy : z = y := by rw [hz] at hs; simpa using (List.cons.inj hs).1
          have hz2 : z ≠ stx := fun e => hps (by simp [← hzy, e])
          have : stripNoise c.rxbuf = stripNoise zs := by
            rw [hz]
            exact stripNoise_noise [z] zs (by simpa using hz2.symm)
          have hle := stripNoise_length zs
          have h1 := congrArg List.length hb
          rw [this] at h1
          have h2 := congrArg List.length hz
          simp at h1 h2
          omega
      · rw [hpp] at hlen
        simp at hlen
        omega
    rw [he, short hshort, hs, quiet_syncDrop, stripNoise_noise _ _ hps]
    simp
  · have hq : (quiet c).rxbuf = stx :: post := by rw [quiet_rxbuf, hs, stripNoise_stx]
    have h9 : byteAt (stx :: (post ++ [b])) 8 = b := by
      have := byteAt_append_length (stx :: post) b []
      simpa [h7] using this
    rw [he, rxByteOp_nine b (quiet c) hup (by rw [hq]; simp [h7]), hq, List.cons_append,
      decide9_falseStx _ _ (by rw [h9]; exact hbe), quiet_syncDrop, quiet_syncDrop, quiet_quiet]
  · have hq : (quiet c).rxbuf = stx :: post := by rw [quiet_rxbuf, hs, stripNoise_stx]
    have h9 : byteAt (stx :: (post ++ [b])) 8 = b := by
      have := byteAt_append_length (stx :: post) b []
      simpa [h7] using this
    have ht : (stx :: (post ++ [b])).take frameLen = stx :: (post ++ [b]) :=
      List.take_of_length_le (by simp [frameLen, h7])
    have hd : (stx :: (post ++ [b])).drop frameLen = [] := List.drop_of_length_le (by simp [frameLen, h7])
    rw [he, rxByteOp_nine b (quiet c) hup (by rw [hq]; simp [h7]), hq, List.cons_append, List.cons_append,
      decide9_candidate _ _ (by rw [h9]; exact hbe), ht, hd, hbe,
      completeFrame_congr (c.setRxbuf []) ((quiet c).setRxbuf []) _ rfl]
    simp [quiet, completeFrame_rxbuf]

theorem quiet_bound (c : Codec) (hl : c.rxbuf.length ≤ 8) : (quiet c).rxbuf.length ≤ 8 :=
  (stripNoise_length c.rxbuf).trans hl

/-- Two blocks that agree up to noise still do after any bytes (42_rx.md R150). -/
theorem quiet_receive_congr (bs : List Byte) (c d : Codec) (hup : c.linkUp = true) (hc : c.rxbuf.length ≤ 8)
    (hd : d.rxbuf.length ≤ 8) (h : quiet c = quiet d) : quiet (receive c bs) = quiet (receive d bs) := by
  induction bs generalizing c d with
  | nil => exact h
  | cons b bs ih =>
    have hupd : d.linkUp = true := by
      have := congrArg Codec.linkUp h
      simpa [hup] using this.symm
    exact ih _ _ (by simpa using hup) (rxByteOp_bound b c hc) (rxByteOp_bound b d hd)
      (by rw [quiet_rxByteOp b c hup hc, quiet_rxByteOp b d hupd hd, h])

/-- Noise is invisible. -/
theorem quiet_receive_noise (g : List Byte) (c : Codec) (hup : c.linkUp = true) (hc : c.rxbuf.length ≤ 8)
    (hn : stx ∉ c.rxbuf) (hg : stx ∉ g) : quiet (receive c g) = quiet c := by
  induction g generalizing c with
  | nil => rfl
  | cons b bs ih =>
    have hb : b ≠ stx := fun e => hg (by simp [e])
    have hq : (quiet c).rxbuf = [] := stripNoise_none _ hn
    have h1 : quiet (rxByteOp b c).1 = quiet c := by
      rw [quiet_rxByteOp b c hup hc, rxByteOp_short b (quiet c) hup (by rw [hq]; simp), quiet_setRxbuf, hq,
        stripNoise_none _ (by simpa using hb.symm), quiet_quiet]
      simp only [quiet, stripNoise_none _ hn]
    have h2 : stx ∉ (rxByteOp b c).1.rxbuf := by
      intro hm
      have h3 : stripNoise (rxByteOp b c).1.rxbuf = [] := by
        have := congrArg Codec.rxbuf h1
        simpa [hq] using this.trans hq
      obtain hn' | ⟨pre, post, hs, hp⟩ := split_at_first stx (rxByteOp b c).1.rxbuf
      · exact hn' hm
      · rw [hs, stripNoise_noise _ _ hp, stripNoise_stx] at h3
        simp at h3
    rw [receive_cons, ih _ (by simpa using hup) (rxByteOp_bound b c hc) h2
      (fun hm => hg (List.mem_cons_of_mem b hm)), h1]

/-- A buffer of at most 8 bytes is what receiving its bytes into an empty buffer leaves. -/
theorem receive_own_buffer (c : Codec) (hup : c.linkUp = true) (hl : c.rxbuf.length ≤ 8) :
    receive (c.setRxbuf []) c.rxbuf = c := by
  rw [receive_short _ _ (by simpa using hup) (by simpa using hl)]
  simp [Codec.setRxbuf]

/-- Nine bytes from an empty buffer with STX first and no ETX last: the STX is discarded, the other eight are kept. -/
theorem receive_falseStx (c : Codec) (hup : c.linkUp = true) (mid : List Byte) (e : Byte) (h7 : mid.length = 7)
    (he : e ≠ etx) :
    receive (c.setRxbuf []) (stx :: mid ++ [e]) = (syncDrop c (stx :: mid ++ [e]) 1).1 := by
  rw [receive_append, receive_short (stx :: mid) _ (by simpa using hup) (by simp [h7]), receive_cons, receive_nil]
  have h9 : byteAt (stx :: (mid ++ [e])) 8 = e := by
    have := byteAt_append_length (stx :: mid) e []
    simpa [h7] using this
  rw [rxByteOp_nine _ _ (by simpa using hup) (by simp [h7])]
  simp only [Codec.setRxbuf_rxbuf, List.nil_append, List.cons_append]
  rw [decide9_falseStx _ _ (by rw [h9]; exact he)]
  rfl

/-- Nine bytes from an empty buffer with STX first and ETX last: a candidate is decided, the buffer stays empty. -/
theorem receive_candidate (c : Codec) (hup : c.linkUp = true) (mid : List Byte) (h7 : mid.length = 7) :
    receive (c.setRxbuf []) (stx :: mid ++ [etx]) = (completeFrame (c.setRxbuf []) (stx :: mid ++ [etx])).1 := by
  rw [receive_append, receive_short (stx :: mid) _ (by simpa using hup) (by simp [h7]), receive_cons, receive_nil]
  have h9 : byteAt (stx :: (mid ++ [etx])) 8 = etx := by
    have := byteAt_append_length (stx :: mid) etx []
    simpa [h7] using this
  rw [rxByteOp_nine _ _ (by simpa using hup) (by simp [h7])]
  simp only [Codec.setRxbuf_rxbuf, List.nil_append, List.cons_append]
  rw [decide9_candidate _ _ h9, List.take_of_length_le (by simp [frameLen, h7]),
    List.drop_of_length_le (by simp [frameLen, h7])]
  rfl

/-- A list of at least nine bytes with STX first, cut at the ninth. -/
theorem cut_nine (post : List Byte) (h : 9 ≤ (stx :: post).length) :
    ∃ mid e rest, mid.length = 7 ∧ stx :: post = stx :: mid ++ [e] ++ rest := by
  rcases post with _ | ⟨a, _ | ⟨b, _ | ⟨c, _ | ⟨d, _ | ⟨x, _ | ⟨y, _ | ⟨z, _ | ⟨e, rest⟩⟩⟩⟩⟩⟩⟩⟩
  · simp at h
  · simp at h
  · simp at h
  · simp at h
  · simp at h
  · simp at h
  · simp at h
  · simp at h
  · exact ⟨[a, b, c, d, x, y, z], e, rest, rfl, rfl⟩

/-- The block with its buffer shortened to `b` and `n` bytes counted as discarded. -/
def dropTo (c : Codec) (b : List Byte) (n : Nat) : Codec :=
  { c with rxbuf := b, cntSyncDrop := c.cntSyncDrop + BitVec.ofNat 32 n }

/-- One turn of the source's loop on a buffer of nine or more bytes with an STX: discard the noise before it, then stop, or
discard the false STX and go on, or extract and decide a candidate and go on. -/
theorem feedLoop_turn (n : Nat) (c : Codec) (pre post : List Byte) (hb : c.rxbuf = pre ++ stx :: post)
    (hp : stx ∉ pre) (h9 : 9 ≤ c.rxbuf.length) :
    ((stx :: post).length < 9 ∧ feedLoop (n + 1) c = dropTo c (stx :: post) pre.length) ∨
    ∃ mid e rest, mid.length = 7 ∧ stx :: post = stx :: mid ++ [e] ++ rest ∧
      ((e ≠ etx ∧ feedLoop (n + 1) c = feedLoop n (syncDrop (dropTo c (stx :: post) pre.length) (stx :: post) 1).1) ∨
       (e = etx ∧ feedLoop (n + 1) c =
          feedLoop n (completeFrame ((dropTo c (stx :: post) pre.length).setRxbuf rest) (stx :: mid ++ [etx])).1)) := by
  have hn9 : ¬(c.rxbuf.length < frameLen) := by simp [frameLen]; omega
  have hd : (if pre.length = 0 then c else (syncDrop c c.rxbuf pre.length).1) = dropTo c (stx :: post) pre.length := by
    by_cases h0 : pre.length = 0
    · have : pre = [] := by simpa using h0
      subst this
      simp only [List.length_nil, if_true, dropTo]
      simp at hb
      simp [← hb]
    · rw [if_neg h0, syncDrop_eq, hb, List.drop_left]
      rfl
  have hunf : feedLoop (n + 1) c =
      if (dropTo c (stx :: post) pre.length).rxbuf.length < frameLen then dropTo c (stx :: post) pre.length
      else if byteAt (dropTo c (stx :: post) pre.length).rxbuf 8 ≠ etx then
        feedLoop n (syncDrop (dropTo c (stx :: post) pre.length) (dropTo c (stx :: post) pre.length).rxbuf 1).1
      else feedLoop n (completeFrame ((dropTo c (stx :: post) pre.length).setRxbuf
        ((dropTo c (stx :: post) pre.length).rxbuf.drop frameLen))
          ((dropTo c (stx :: post) pre.length).rxbuf.take frameLen)).1 := by
    rw [← hd]
    rw [feedLoop, if_neg hn9]
    simp only [hb, firstIndex_append stx pre post hp]
  rw [hunf]
  have hr : (dropTo c (stx :: post) pre.length).rxbuf = stx :: post := rfl
  rw [hr]
  by_cases hlt : (stx :: post).length < 9
  · exact .inl ⟨hlt, if_pos hlt⟩
  · refine .inr ?_
    obtain ⟨mid, e, rest, h7, hs⟩ := cut_nine post (by omega)
    refine ⟨mid, e, rest, h7, hs, ?_⟩
    have hat : byteAt (stx :: post) 8 = e := by
      have := byteAt_append_length (stx :: mid) e rest
      rw [hs]
      simpa [h7] using this
    rw [if_neg (show ¬((stx :: post).length < frameLen) from hlt), hat]
    by_cases he : e = etx
    · refine .inr ⟨he, ?_⟩
      rw [if_neg (not_not_intro he), hs, he]
      have h9' : (stx :: mid ++ [etx]).length = frameLen := by simp [frameLen, h7]
      rw [List.drop_left' h9', List.take_left' h9']
    · exact .inl ⟨he, if_pos he⟩

/-- After a false STX the loop goes on as receiving the bytes behind it does. -/
theorem receive_after_falseStx (d : Codec) (hup : d.linkUp = true) (mid : List Byte) (e : Byte) (rest : List Byte)
    (h7 : mid.length = 7) (he : e ≠ etx) :
    receive ((syncDrop d (stx :: mid ++ [e] ++ rest) 1).1.setRxbuf []) (mid ++ [e] ++ rest) =
      receive (d.setRxbuf []) (stx :: mid ++ [e] ++ rest) := by
  rw [receive_append (d.setRxbuf []), receive_falseStx d hup mid e h7 he, receive_append,
    receive_short (mid ++ [e]) _ (by simpa [syncDrop_eq] using hup) (by simp [h7])]
  rfl

/-- After a decided candidate the loop goes on as receiving the bytes behind it does. -/
theorem receive_after_candidate (d : Codec) (hup : d.linkUp = true) (mid rest : List Byte) (h7 : mid.length = 7) :
    receive ((completeFrame (d.setRxbuf rest) (stx :: mid ++ [etx])).1.setRxbuf []) rest =
      receive (d.setRxbuf []) (stx :: mid ++ [etx] ++ rest) := by
  rw [receive_append (d.setRxbuf []), receive_candidate d hup mid h7,
    completeFrame_congr (d.setRxbuf rest) (d.setRxbuf []) _ rfl]
  congr 1
  have h1 := completeFrame_rxbuf (d.setRxbuf []) (stx :: mid ++ [etx])
  have h2 := congrArg Codec.cntSyncDrop (completeFrame_congr (d.setRxbuf []) (d.setRxbuf []) (stx :: mid ++ [etx]) rfl)
  generalize (completeFrame (d.setRxbuf []) (stx :: mid ++ [etx])).1 = x at h1 h2
  rcases x with ⟨⟩
  simp only [Codec.setRxbuf_rxbuf, Codec.setRxbuf_cntSyncDrop] at h1 h2
  subst h1 h2
  rfl

/-- The source's loop agrees, up to noise, with receiving the buffer's bytes one at a time into an empty buffer, and ends with
fewer than nine bytes. -/
theorem feedLoop_spec (n : Nat) (c : Codec) (hup : c.linkUp = true) (hn : c.rxbuf.length < n) :
    quiet (feedLoop n c) = quiet (receive (c.setRxbuf []) c.rxbuf) ∧ (feedLoop n c).rxbuf.length ≤ 8 ∧
      (feedLoop n c).linkUp = true := by
  induction n generalizing c with
  | zero => omega
  | succ n ih =>
    by_cases hlt : c.rxbuf.length < 9
    · have : feedLoop (n + 1) c = c := if_pos hlt
      rw [this, receive_own_buffer c hup (by omega)]
      exact ⟨rfl, by omega, hup⟩
    obtain hno | ⟨pre, post, hb, hp⟩ := split_at_first stx c.rxbuf
    · have : feedLoop (n + 1) c = (syncDrop c c.rxbuf c.rxbuf.length).1 := by
        rw [feedLoop, if_neg (show ¬(c.rxbuf.length < frameLen) from hlt)]
        simp only [(firstIndex_eq_none stx _).2 hno]
      rw [this, quiet_receive_noise _ _ (by simpa using hup) (by simp) (by simp) hno]
      refine ⟨?_, by simp [syncDrop_eq], hup⟩
      rw [quiet_syncDrop, quiet_setRxbuf, List.drop_length]
    · have hup0 : (c.setRxbuf []).linkUp = true := by simpa using hup
      have hpre : quiet (receive (c.setRxbuf []) pre) = quiet ((dropTo c (stx :: post) pre.length).setRxbuf []) := by
        rw [quiet_receive_noise _ _ hup0 (by simp) (by simp) hp]
        rfl
      have hbytes : quiet (receive (c.setRxbuf []) c.rxbuf) =
          quiet (receive ((dropTo c (stx :: post) pre.length).setRxbuf []) (stx :: post)) := by
        rw [hb, receive_append]
        exact quiet_receive_congr _ _ _ (by simpa using hup) (receive_bound _ _ (by simp)) (by simp) hpre
      rw [hbytes]
      have hlen : c.rxbuf.length = pre.length + (stx :: post).length := by rw [hb]; simp
      have hupd : (dropTo c (stx :: post) pre.length).linkUp = true := hup
      have hdr : (dropTo c (stx :: post) pre.length).rxbuf = stx :: post := rfl
      have hturn := feedLoop_turn n c pre post hb hp (by omega)
      generalize dropTo c (stx :: post) pre.length = d at hturn hupd hdr
      obtain ⟨hl, he⟩ | ⟨mid, e, rest, h7, hs, ⟨hne, he⟩ | ⟨heq, he⟩⟩ := hturn
      · have h8 : d.rxbuf.length ≤ 8 := by rw [hdr]; omega
        rw [he, ← hdr, receive_own_buffer d hupd h8]
        exact ⟨rfl, h8, hupd⟩
      · have hfuel : (syncDrop d (stx :: post) 1).1.rxbuf.length < n := by
          simp [syncDrop_eq] at hlen ⊢
          omega
        obtain ⟨h1, h2, h3⟩ := ih (syncDrop d (stx :: post) 1).1 hupd hfuel
        rw [he]
        refine ⟨?_, h2, h3⟩
        rw [h1, hs]
        exact congrArg quiet (receive_after_falseStx d hupd mid e rest h7 hne)
      · subst heq
        have hfuel : (completeFrame (d.setRxbuf rest) (stx :: mid ++ [etx])).1.rxbuf.length < n := by
          rw [completeFrame_rxbuf]
          rw [hs] at hlen
          simp [h7] at hlen ⊢
          omega
        obtain ⟨h1, h2, h3⟩ := ih _ (by simpa using hupd) hfuel
        rw [he]
        refine ⟨?_, h2, h3⟩
        rw [h1, hs, completeFrame_rxbuf]
        exact congrArg quiet (receive_after_candidate d hupd mid rest h7)

/-- The source's `feed` of a chunk agrees, up to noise, with receiving its bytes one at a time (42_rx.md R149). -/
theorem feedChunk_spec (c : Codec) (k : List Byte) (hup : c.linkUp = true) (hl : c.rxbuf.length ≤ 8) :
    quiet (feedChunk c k) = quiet (receive c k) ∧ (feedChunk c k).rxbuf.length ≤ 8 ∧ (feedChunk c k).linkUp = true := by
  obtain ⟨h1, h2, h3⟩ := feedLoop_spec (c.rxbuf.length + k.length + 1) (c.setRxbuf (c.rxbuf ++ k))
    (by simpa using hup) (by simp)
  refine ⟨?_, h2, h3⟩
  have : (c.setRxbuf (c.rxbuf ++ k)).setRxbuf [] = c.setRxbuf [] := rfl
  have h := receive_own_buffer c hup hl
  rw [feedChunk, h1, this, Codec.setRxbuf_rxbuf, receive_append, h]

/-- Chunk after chunk. -/
theorem feedAll_spec (chunks : List (List Byte)) (c : Codec) (hup : c.linkUp = true) (hl : c.rxbuf.length ≤ 8) :
    quiet (feedAll c chunks) = quiet (receive c chunks.flatten) := by
  induction chunks generalizing c with
  | nil => rfl
  | cons k ks ih =>
    obtain ⟨h1, h2, h3⟩ := feedChunk_spec c k hup hl
    have : feedAll c (k :: ks) = feedAll (feedChunk c k) ks := rfl
    rw [this, ih _ h3 h2, List.flatten_cons, receive_append]
    exact quiet_receive_congr _ _ _ h3 h2 (receive_bound _ _ hl) h1

/-- Where every received byte is: discarded and counted, buffered, or in one of the nine-byte candidates decided. -/
def accounted (c : Codec) : Word :=
  c.cntSyncDrop + BitVec.ofNat 32 c.rxbuf.length + 9#32 * (c.cntFramesOk + c.cntCrcErr)

theorem accounted_setRxbuf (c : Codec) (b x : List Byte) :
    accounted (c.setRxbuf (b ++ x)) = accounted (c.setRxbuf b) + BitVec.ofNat 32 x.length := by
  simp only [accounted, Codec.setRxbuf_rxbuf, Codec.setRxbuf_cntSyncDrop, Codec.setRxbuf_cntFramesOk,
    Codec.setRxbuf_cntCrcErr, List.length_append, BitVec.ofNat_add]
  ring

/-- A discard moves bytes from the buffer to the count. -/
theorem accounted_syncDrop (c : Codec) (b : List Byte) (n : Nat) (h : n ≤ b.length) :
    accounted (syncDrop c b n).1 = accounted (c.setRxbuf b) := by
  have hb : BitVec.ofNat 32 b.length = BitVec.ofNat 32 n + BitVec.ofNat 32 (b.length - n) := by
    rw [← BitVec.ofNat_add, Nat.add_sub_cancel' h]
  simp only [accounted, syncDrop_eq, List.length_drop, Codec.setRxbuf_rxbuf, Codec.setRxbuf_cntSyncDrop,
    Codec.setRxbuf_cntFramesOk, Codec.setRxbuf_cntCrcErr, hb]
  ring

/-- A decided candidate accounts for its nine bytes. -/
theorem accounted_completeFrame (c : Codec) (f : List Byte) :
    accounted (completeFrame c f).1 = accounted c + 9#32 := by
  have e : 9#32 * 1#32 = 9#32 := rfl
  cases hc : crcRight f with
  | true => rw [completeFrame_right _ _ hc]; simp only [accounted, mul_add, e]; ring
  | false => rw [completeFrame_wrong _ _ hc]; simp only [accounted, mul_add, e]; ring

theorem accounted_rxByteOp (b : Byte) (c : Codec) (hup : c.linkUp = true) (hl : c.rxbuf.length ≤ 8) :
    accounted (rxByteOp b c).1 = accounted c + 1#32 := by
  have happ : accounted (c.setRxbuf (c.rxbuf ++ [b])) = accounted c + 1#32 := accounted_setRxbuf c c.rxbuf [b]
  obtain ⟨h, he⟩ | ⟨h, _, he⟩ | ⟨pre, post, h, _, _, hs, he⟩ | ⟨post, h7, hs, _, he⟩ | ⟨post, h7, hs, hbe, he⟩ :=
    rxByteOp_cases b c hup hl
  · rw [he]; exact happ
  · rw [he, accounted_syncDrop _ _ _ (by simp [h]), happ]
  · rw [he, accounted_syncDrop _ _ _ (by simp), ← hs, happ]
  · rw [he, accounted_syncDrop _ _ _ (by simp), ← hs, happ]
  · rw [he, accounted_completeFrame, ← happ, hs, hbe]
    have : accounted (c.setRxbuf (stx :: post ++ [etx])) = accounted (c.setRxbuf ([] ++ (stx :: post ++ [etx]))) := rfl
    rw [this, accounted_setRxbuf]
    simp [h7]

theorem accounted_receive (bs : List Byte) (c : Codec) (hup : c.linkUp = true) (hl : c.rxbuf.length ≤ 8) :
    accounted (receive c bs) = accounted c + BitVec.ofNat 32 bs.length := by
  induction bs generalizing c with
  | nil => simp
  | cons b bs ih =>
    rw [receive_cons, ih _ (by simpa using hup) (rxByteOp_bound b c hl), accounted_rxByteOp b c hup hl,
      List.length_cons, BitVec.ofNat_add]
    ring

/-- The source's loop loses no byte from the account. -/
theorem accounted_feedLoop (n : Nat) (c : Codec) : accounted (feedLoop n c) = accounted c := by
  induction n generalizing c with
  | zero => rfl
  | succ n ih =>
    by_cases hlt : c.rxbuf.length < 9
    · rw [show feedLoop (n + 1) c = c from if_pos hlt]
    obtain hno | ⟨pre, post, hb, hp⟩ := split_at_first stx c.rxbuf
    · have : feedLoop (n + 1) c = (syncDrop c c.rxbuf c.rxbuf.length).1 := by
        rw [feedLoop, if_neg (show ¬(c.rxbuf.length < frameLen) from hlt)]
        simp only [(firstIndex_eq_none stx _).2 hno]
      rw [this, accounted_syncDrop _ _ _ le_rfl]
      rfl
    · have hd : accounted (dropTo c (stx :: post) pre.length) = accounted c := by
        have h1 := accounted_syncDrop c c.rxbuf pre.length (by rw [hb]; simp)
        rw [syncDrop_eq, hb, List.drop_left] at h1
        have h2 : c.setRxbuf (pre ++ stx :: post) = c := by rw [← hb]; rfl
        rw [h2] at h1
        exact h1
      have hdr : (dropTo c (stx :: post) pre.length).rxbuf = stx :: post := rfl
      have hturn := feedLoop_turn n c pre post hb hp (by omega)
      generalize dropTo c (stx :: post) pre.length = d at hturn hd hdr
      have hdd : accounted (d.setRxbuf (stx :: post)) = accounted c := by rw [← hdr]; exact hd
      obtain ⟨_, he⟩ | ⟨mid, e, rest, h7, hs, ⟨_, he⟩ | ⟨heq, he⟩⟩ := hturn
      · rw [he, hd]
      · rw [he, ih, accounted_syncDrop _ _ _ (by simp), hdd]
      · subst heq
        have hl : (stx :: mid ++ [etx] ++ rest).length = 9 + rest.length := by simp [h7]; omega
        rw [he, ih, accounted_completeFrame, ← hdd, hs]
        simp only [accounted, Codec.setRxbuf_rxbuf, Codec.setRxbuf_cntSyncDrop, Codec.setRxbuf_cntFramesOk,
          Codec.setRxbuf_cntCrcErr, hl, BitVec.ofNat_add]
        ring

theorem accounted_feedChunk (c : Codec) (k : List Byte) :
    accounted (feedChunk c k) = accounted c + BitVec.ofNat 32 k.length := by
  rw [feedChunk, accounted_feedLoop, accounted_setRxbuf]
  rfl

theorem accounted_feedAll (chunks : List (List Byte)) (c : Codec) :
    accounted (feedAll c chunks) = accounted c + BitVec.ofNat 32 chunks.flatten.length := by
  induction chunks generalizing c with
  | nil => simp [feedAll]
  | cons k ks ih =>
    have : feedAll c (k :: ks) = feedAll (feedChunk c k) ks := rfl
    rw [this, ih, accounted_feedChunk, List.flatten_cons, List.length_append, BitVec.ofNat_add]
    ring

end Sys2Proof.Machine
end

