-- ==== Sys2Proof/Laws/Config.lean ====
section
/-! SUPPORT. The form of the scan table is exactly the spec's one constraint on it (00_scope.md R10): its image holds at least
12 distinct key numbers. -/

namespace Sys2Proof.Config

/-- The twelve key numbers a table of this form surely names. -/
theorem tableOf_names_twelve (codes : Equiv.Perm Byte) (keys : Equiv.Perm KeyIndex) (other : Byte → Option KeyIndex)
    (i : Fin 12) : tableOf codes keys other (codes.symm (BitVec.ofNat 8 i)) = some (keys (BitVec.ofNat 8 i)) := by
  have h : BitVec.ofNat 8 i.val < 12#8 := by
    revert i
    decide
  simp [tableOf, h]

theorem ofNat_fin12_injective : Function.Injective fun i : Fin 12 => BitVec.ofNat 8 i.val := by
  decide

/-- Those twelve are distinct. -/
theorem keys_of_twelve_injective (keys : Equiv.Perm KeyIndex) :
    Function.Injective fun i : Fin 12 => keys (BitVec.ofNat 8 i.val) :=
  keys.injective.comp ofNat_fin12_injective

/-- Every injection of the twelve numbers below 12 into the bytes extends to a permutation. -/
theorem exists_perm_extending (f : Fin 12 → Byte) (hf : Function.Injective f) :
    ∃ e : Equiv.Perm Byte, ∀ i : Fin 12, e (BitVec.ofNat 8 i.val) = f i := by
  let small := Set.range fun i : Fin 12 => BitVec.ofNat 8 i.val
  let g : small ↪ Byte :=
    ⟨fun x => f (Equiv.ofInjective _ ofNat_fin12_injective |>.symm x),
      fun x y h => (Equiv.ofInjective _ ofNat_fin12_injective).symm.injective (hf h)⟩
  let e : small ≃ Set.range g := Equiv.ofInjective g g.injective
  have : Fintype Byte := Fintype.ofEquiv (Fin (2 ^ 8)) ⟨BitVec.ofFin, BitVec.toFin, fun _ => rfl, fun _ => rfl⟩
  classical
  refine ⟨e.extendSubtype, fun i => ?_⟩
  have hi : (BitVec.ofNat 8 i.val) ∈ small := ⟨i, rfl⟩
  have := e.extendSubtype_apply_of_mem (BitVec.ofNat 8 i.val) hi
  rw [this]
  change f _ = f i
  congr 1
  exact (Equiv.symm_apply_eq _).2 rfl

/-- Every table that names twelve distinct keys has the form `tableOf`: the model leaves no such table out. -/
theorem every_table_with_twelve_keys_has_the_form (table : Byte → Option KeyIndex) (code : Fin 12 → Byte)
    (key : Fin 12 → KeyIndex) (hk : Function.Injective key) (h : ∀ i, table (code i) = some (key i)) :
    ∃ codes keys other, tableOf codes keys other = table := by
  have hc : Function.Injective code := fun i j hij => hk (by
    have := h i
    rw [hij, h j] at this
    exact (Option.some.inj this).symm)
  obtain ⟨ec, hec⟩ := exists_perm_extending code hc
  obtain ⟨ek, hek⟩ := exists_perm_extending key hk
  refine ⟨ec.symm, ek, table, funext fun b => ?_⟩
  by_cases hb : ec.symm b < 12#8
  · have hn : (ec.symm b).toNat < 12 := by simpa [BitVec.lt_def] using hb
    obtain ⟨i, hi⟩ : ∃ i : Fin 12, ec.symm b = BitVec.ofNat 8 i.val := ⟨⟨_, hn⟩, by simp⟩
    have hb2 : b = code i := by rw [← hec, ← hi, Equiv.apply_symm_apply]
    simp only [tableOf, hb, if_true]
    rw [hi, hek, hb2, h]
  · simp [tableOf, hb]

end Sys2Proof.Config
end

