-- ==== Sys2Proof/Laws/Decode.lean ====
section
/-! SUPPORT. What the operation decoder does on any bytes. -/

namespace Sys2Proof

theorem byte_of_toNat (op : Byte) (n : Nat) (h : op.toNat = n) : op = BitVec.ofNat 8 n := by
  rw [← h]; simp

/-- A byte that is none of the fifteen opcodes is a one-byte illegal operation. -/
theorem unassigned_opcode (op : Byte) (h : op ∉ assignedOpcodes) (xs : List Byte) :
    opLength op = 1 ∧ decodeOp (op :: xs) = .ok (.illegal op, xs) := by
  have hne : ∀ n, BitVec.ofNat 8 n ∈ assignedOpcodes → op.toNat ≠ n := fun n hn he =>
    h (by rw [byte_of_toNat op n he]; exact hn)
  constructor
  · unfold opLength
    split <;> first | rfl | exact absurd ‹_› (hne _ (by decide))
  · unfold decodeOp
    simp only
    split <;> first | rfl | exact absurd ‹_› (hne _ (by decide))

/-- What one opcode with the bytes after it decodes to: the well-formed operation whose encoding the first bytes are, as
many as the opcode asks for, or a truncated operation where there are fewer. -/
theorem decodeOp_cons (op : Byte) (xs : List Byte) :
    (opLength op ≤ xs.length + 1 ∧ ∃ i, decodeOp (op :: xs) = .ok (i, xs.drop (opLength op - 1)) ∧ i.isFrame = false ∧
      i.wellFormed = true ∧ encode i = op :: xs.take (opLength op - 1)) ∨
    (xs.length + 1 < opLength op ∧ decodeOp (op :: xs) = .error (.truncated op)) := by
  by_cases hm : op ∈ assignedOpcodes
  · have pick : ∀ n ys i, opLength op = n + 1 → xs = ys → n ≤ ys.length → decodeOp (op :: ys) = .ok (i, ys.drop n) →
        i.isFrame = false → i.wellFormed = true → encode i = op :: ys.take n →
        (opLength op ≤ xs.length + 1 ∧ ∃ i, decodeOp (op :: xs) = .ok (i, xs.drop (opLength op - 1)) ∧
          i.isFrame = false ∧ i.wellFormed = true ∧ encode i = op :: xs.take (opLength op - 1)) := by
      rintro n ys i hl rfl hn hd hf hw he
      exact ⟨by omega, i, by rw [hl]; exact hd, hf, hw, by rw [hl]; exact he⟩
    simp only [assignedOpcodes, List.mem_cons, List.not_mem_nil, or_false] at hm
    rcases hm with rfl | rfl | rfl | rfl | rfl | rfl | rfl | rfl | rfl | rfl | rfl | rfl | rfl | rfl | rfl
    case inl | inr.inl | inr.inr.inr.inl => exact .inl (pick 0 xs _ rfl rfl (by simp) rfl rfl rfl rfl)
    all_goals
      rcases xs with _ | ⟨a, _ | ⟨b, _ | ⟨c, _ | ⟨d, _ | ⟨e, _ | ⟨f, _ | ⟨g, _ | ⟨i, _ | ⟨j, r⟩⟩⟩⟩⟩⟩⟩⟩⟩
    all_goals first
      | exact .inr ⟨by simp [opLength], rfl⟩
      | exact .inl ⟨by simp [opLength], _, rfl, rfl, rfl, rfl⟩
  · obtain ⟨hl, hd⟩ := unassigned_opcode op hm xs
    exact .inl ⟨by omega, _, by rw [hl, hd]; rfl, rfl, by simp [Instr.wellFormed, hm], by rw [hl]; rfl⟩

/-- The operation decoder accepts exactly whole operations, and says which. -/
theorem decodeOp_ok (bs rest : List Byte) (i : Instr) (h : decodeOp bs = .ok (i, rest)) :
    ∃ op xs, bs = op :: xs ∧ opLength op ≤ xs.length + 1 ∧ rest = xs.drop (opLength op - 1) ∧ i.isFrame = false ∧
      i.wellFormed = true ∧ encode i = op :: xs.take (opLength op - 1) := by
  rcases bs with _ | ⟨op, xs⟩
  · simp [decodeOp] at h
  · obtain ⟨hl, j, hj, hf, hw, he⟩ | ⟨_, he⟩ := decodeOp_cons op xs
    · rw [hj] at h
      simp only [Except.ok.injEq, Prod.mk.injEq] at h
      obtain ⟨rfl, rfl⟩ := h
      exact ⟨op, xs, rfl, hl, rfl, hf, hw, he⟩
    · rw [he] at h; simp at h

/-- The operation decoder rejects only no bytes and a partial operation. -/
theorem decodeOp_error (bs : List Byte) (e : DecodeError) (h : decodeOp bs = .error e) :
    (bs = [] ∧ e = .noBytes) ∨ ∃ op xs, bs = op :: xs ∧ xs.length + 1 < opLength op ∧ e = .truncated op := by
  rcases bs with _ | ⟨op, xs⟩
  · simp only [decodeOp, Except.error.injEq] at h
    exact .inl ⟨rfl, h.symm⟩
  · obtain ⟨_, j, hj, _⟩ | ⟨hl, he⟩ := decodeOp_cons op xs
    · rw [hj] at h; simp at h
    · rw [he] at h
      simp only [Except.error.injEq] at h
      exact .inr ⟨op, xs, rfl, hl, h.symm⟩

/-- DATA1 of the SetBuzzer and keypad rows: seven fixed bits and the field. -/
theorem stateByte_fields : ∀ o : BitVec 1, (0b0011000#7 ++ o).extractLsb' 1 7 = 0b0011000#7 ∧
    (0b0011000#7 ++ o).extractLsb' 0 1 = o ∧ 0b0011000#7 ++ o = if o = 1#1 then 0x31#8 else 0x30#8 := by
  decide

/-- A byte with those seven bits is one of the two state codes. -/
theorem stateByte_of_bits : ∀ b : Byte, b.extractLsb' 1 7 = 0b0011000#7 →
    b = if b.extractLsb' 0 1 = 1#1 then 0x31#8 else 0x30#8 := by
  decide

/-- The wire decoder accepts exactly the three frame rows, and says which. -/
theorem decodeFrame_ok (bs : List Byte) (i : Instr) (hd : decodeFrame bs = .ok i) :
    ∃ b0 b1 b2 b3 b4 b5 h l b8, bs = [b0, b1, b2, b3, b4, b5, h, l, b8] ∧ b0 = 0x02#8 ∧ b8 = 0x03#8 ∧
      ((b1 = 0x11#8 ∧ b2 = 0x3A#8 ∧ b5 = 0x20#8 ∧ i = .frameSetled b3 b4 h l) ∨
       (b1 = 0x11#8 ∧ b2 = 0x3B#8 ∧ b3.extractLsb' 1 7 = 0b0011000#7 ∧ b4 = 0x20#8 ∧ b5 = 0x20#8 ∧
          i = .frameSetbuzzer (b3.extractLsb' 0 1) h l) ∨
       (b1 = 0x10#8 ∧ b2 = 0x3D#8 ∧ b3.extractLsb' 1 7 = 0b0011000#7 ∧
          i = .frameKeypadReport (b3.extractLsb' 0 1) b4 b5 h l)) := by
  unfold decodeFrame at hd
  split at hd
  · rename_i b0 b1 b2 b3 b4 b5 h l b8
    refine ⟨b0, b1, b2, b3, b4, b5, h, l, b8, rfl, ?_⟩
    split at hd
    · rename_i hc
      cases hd
      obtain ⟨h0, h1, h2, h5, h8⟩ := hc
      exact ⟨h0, h8, .inl ⟨h1, h2, h5, rfl⟩⟩
    · split at hd
      · rename_i hc
        cases hd
        obtain ⟨h0, h1, h2, h3, h4, h5, h8⟩ := hc
        exact ⟨h0, h8, .inr (.inl ⟨h1, h2, h3, h4, h5, rfl⟩)⟩
      · split at hd
        · rename_i hc
          cases hd
          obtain ⟨h0, h1, h2, h3, h8⟩ := hc
          exact ⟨h0, h8, .inr (.inr ⟨h1, h2, h3, rfl⟩)⟩
        · cases hd
  · cases hd

/-- A state code has the seven fixed bits, and its field in bit 0. -/
theorem stateCode_fields : ∀ o : BitVec 1,
    (if o = 1#1 then 0x31#8 else 0x30#8).extractLsb' 1 7 = 0b0011000#7 ∧
      (if o = 1#1 then 0x31#8 else 0x30#8).extractLsb' 0 1 = o := by
  decide

end Sys2Proof
end

