-- ==== Sys2Proof/Laws/Control.lean ====
section
/-! SUPPORT. What reading and writing a register does at every index (44_control.md R191, R192). -/

namespace Sys2Proof.Machine

/-- An index above the register file names no register. -/
theorem readReg_reserved (idx : Byte) (c : Codec) (h : 7 ≤ idx.toNat) : readReg c idx = none := by
  unfold readReg
  split <;> first | rfl | omega

/-- KEY_FILTER takes bits 15:0 of the operand. -/
theorem writeReg_filter (v3 v2 v1 v0 : Byte) (c : Codec) :
    writeReg 0x04#8 (word32 v3 v2 v1 v0) c = (c.setKeyFilter v1 v0, report .ok []) := by
  have : writeReg 0x04#8 (word32 v3 v2 v1 v0) c = (c.setKeyFilter ((word32 v3 v2 v1 v0).extractLsb' 8 8)
    ((word32 v3 v2 v1 v0).extractLsb' 0 8), report .ok []) := rfl
  rw [this, word32_byte1, word32_byte0]

/-- The other six registers are read-only. -/
theorem writeReg_readOnly (idx : Byte) (v : Word) (c : Codec) (h : idx ≠ 0x04#8) (h6 : idx.toNat ≤ 6) :
    writeReg idx v c = (c, report .eRoReg []) := by
  have h4 : idx.toNat ≠ 4 := fun e => h (byte_of_toNat idx 4 e)
  unfold writeReg
  generalize idx.toNat = n at h4 h6
  interval_cases n <;> first | rfl | exact absurd rfl h4

/-- An index above the register file names no register. -/
theorem writeReg_reserved (idx : Byte) (v : Word) (c : Codec) (h : 7 ≤ idx.toNat) :
    writeReg idx v c = (c, report .eBadReg []) := by
  unfold writeReg
  split <;> first | rfl | omega

/-- A write to any register but KEY_FILTER leaves the block as it is. -/
theorem writeReg_frame (idx : Byte) (v : Word) (c : Codec) (h : idx ≠ 0x04#8) : (writeReg idx v c).1 = c := by
  by_cases h6 : idx.toNat ≤ 6
  · rw [writeReg_readOnly idx v c h h6]
  · rw [writeReg_reserved idx v c (by omega)]

/-- STATUS as result data (10_state.md R38). -/
theorem bytes32_status (c : Codec) (h : c.rxbuf.length ≤ 8) : bytes32 (statusValue c) =
    [0#8, 0#8, 0#8, BitVec.ofNat 8 (2 * c.rxbuf.length + if c.linkUp then 1 else 0)] := by
  unfold statusValue
  generalize c.rxbuf.length = n at h
  interval_cases n <;> cases c.linkUp <;> rfl

end Sys2Proof.Machine
end

