-- ==== Sys2Proof/Laws/Crc.lean ====
section
/-! SUPPORT. The CRC is linear over XOR, and so has the table-driven form and catches every single-bit error (40_crc.md
R105). -/

namespace Sys2Proof.Machine

theorem crcShift_xor (a b : Half) : crcShift (a ^^^ b) = crcShift a ^^^ crcShift b := by
  cases ha : a.getLsbD 0 <;> cases hb : b.getLsbD 0 <;>
    simp only [crcShift, BitVec.getLsbD_xor, ha, hb, Bool.xor_false, Bool.xor_true, Bool.not_false, Bool.not_true,
      if_true, Bool.false_eq_true, if_false, BitVec.ushiftRight_xor_distrib] <;>
    ext i <;> simp [Bool.xor_comm, Bool.xor_left_comm]

theorem crcShifts_xor (n : Nat) (a b : Half) : crcShifts n (a ^^^ b) = crcShifts n a ^^^ crcShifts n b := by
  induction n generalizing a b with
  | zero => rfl
  | succ n ih => simp only [crcShifts, crcShift_xor, ih]

/-- The update is linear in the accumulator and the byte together. -/
theorem crc16Update_xor (a b : Half) (x y : Byte) :
    crc16Update (a ^^^ b) (x ^^^ y) = crc16Update a x ^^^ crc16Update b y := by
  simp only [crc16Update, ← crcShifts_xor]
  congr 1
  ext i
  simp [Bool.xor_comm, Bool.xor_left_comm]

/-- Eight turns carry the high byte to the low byte unchanged. -/
theorem crcShifts_high (x : Byte) : crcShifts 8 (x.setWidth 16 <<< 8) = x.setWidth 16 := by
  revert x
  decide

/-- A 16-bit value is its two bytes. -/
theorem half_split (v : Half) : v = ((hi v).setWidth 16 <<< 8) ^^^ (lo v).setWidth 16 := by
  ext i h
  by_cases h8 : i < 8
  · simp [hi, lo, h8, BitVec.getLsbD_eq_getElem h]
  · have : i - 8 < 8 := by omega
    simp [hi, lo, h8, this, show 8 + (i - 8) = i by omega, BitVec.getLsbD_eq_getElem h]

theorem half_ext (a b : Half) (h : hi a = hi b) (l : lo a = lo b) : a = b := by
  rw [half_split a, half_split b, h, l]

/-- Folding the update from the XOR of two accumulators over the XOR of two byte sequences. -/
theorem crcFold_xor (xs ys : List Byte) (a b : Half) (h : xs.length = ys.length) :
    (List.zipWith (· ^^^ ·) xs ys).foldl crc16Update (a ^^^ b) =
      xs.foldl crc16Update a ^^^ ys.foldl crc16Update b := by
  induction xs generalizing ys a b with
  | nil => cases ys <;> simp_all
  | cons x xs ih =>
    cases ys with
    | nil => simp at h
    | cons y ys => simp only [List.zipWith_cons_cons, List.foldl_cons, crc16Update_xor]; exact ih ys _ _ (by simpa using h)

/-- The CRC after an error pattern is XORed in: the CRC, XOR the pattern's own remainder from 0. -/
theorem crc16_error (xs es : List Byte) (h : xs.length = es.length) :
    crc16 (List.zipWith (· ^^^ ·) xs es) = crc16 xs ^^^ es.foldl crc16Update 0#16 := by
  have := crcFold_xor xs es crcInitValue 0#16 h
  simpa [crc16] using this

theorem crcFold_zeros (n : Nat) : (List.replicate n 0#8).foldl crc16Update 0#16 = 0#16 := by
  have h : crc16Update 0#16 0#8 = 0#16 := by decide
  induction n with
  | zero => rfl
  | succ n ih => rw [List.replicate_succ, List.foldl_cons, h, ih]

/-- Remainders of single-bit errors, `n` bytes after the byte in error. -/
def bitRemainder (k n : Nat) : Half := (List.replicate n 0#8).foldl crc16Update (crc16Update 0#16 (1#8 <<< k))

/-- No single-bit error in five bytes has remainder 0. -/
theorem bitRemainder_ne_zero : ∀ k < 8, ∀ n < 5, bitRemainder k n ≠ 0#16 := by
  have h (k : Fin 8) : bitRemainder k 0 ≠ 0#16 ∧ bitRemainder k 1 ≠ 0#16 ∧ bitRemainder k 2 ≠ 0#16 ∧
      bitRemainder k 3 ≠ 0#16 ∧ bitRemainder k 4 ≠ 0#16 := by
    fin_cases k <;> decide
  intro k hk n hn
  obtain ⟨h0, h1, h2, h3, h4⟩ := h ⟨k, hk⟩
  interval_cases n <;> assumption

theorem xor_ne_self (a e : Half) (h : e ≠ 0#16) : a ^^^ e ≠ a := by
  intro he
  apply h
  have := congrArg (a ^^^ ·) he
  simpa [← BitVec.xor_assoc] using this

theorem bit_ne_zero (k : Nat) (h : k < 8) : (1#8 <<< k) ≠ 0#8 := by
  have : ∀ j : Fin 8, (1#8 <<< j.val) ≠ 0#8 := by decide
  exact this ⟨k, h⟩

theorem byte_xor_ne_self (a e : Byte) (h : e ≠ 0#8) : a ^^^ e ≠ a := by
  intro he
  apply h
  have := congrArg (a ^^^ ·) he
  simpa [← BitVec.xor_assoc] using this

end Sys2Proof.Machine
end

