-- ==== Sys2Proof/Laws/Effects.lean ====
section
/-! SUPPORT. Which elements of the block the receive scanner neither reads nor writes (10_state.md R22, R25, R28), and what
an instruction leaves of the block's bound. -/

namespace Sys2Proof.Machine

open Sys2Proof.Safety

/-- The block with other values in the elements that the receive scanner neither reads nor writes. -/
def Codec.withOther (c : Codec) (acc : Half) (tx : List Byte) (n : Word) : Codec :=
  { c with crcAcc := acc, txStream := tx, cntTxDropped := n }

/-- The block with earlier output in front of what its streams hold. -/
def Codec.withEarlier (c : Codec) (tx : List Byte) (fr : List Payload) (ke : List KeyEvent) : Codec :=
  { c with txStream := tx ++ c.txStream, rxFrames := fr ++ c.rxFrames, keyEvents := ke ++ c.keyEvents }

/-- The block with other values in its counters, each moved by an offset. -/
def Codec.withOffsets (c : Codec) (f e d x : Word) : Codec :=
  { c with
    cntFramesOk := c.cntFramesOk + f
    cntCrcErr := c.cntCrcErr + e
    cntSyncDrop := c.cntSyncDrop + d
    cntTxDropped := c.cntTxDropped + x }

theorem completeFrame_withOther (c : Codec) (f : List Byte) (a : Half) (t : List Byte) (n : Word) :
    completeFrame (c.withOther a t n) f = ((completeFrame c f).1.withOther a t n, (completeFrame c f).2) := by
  cases h : crcRight f with
  | true => rw [completeFrame_right _ _ h, completeFrame_right _ _ h]; rfl
  | false => rw [completeFrame_wrong _ _ h, completeFrame_wrong _ _ h]; rfl

theorem decide9_withOther (c : Codec) (b : List Byte) (a : Half) (t : List Byte) (n : Word) :
    decide9 (c.withOther a t n) b = ((decide9 c b).1.withOther a t n, (decide9 c b).2) := by
  unfold decide9
  split
  · rfl
  · split
    · rfl
    · exact completeFrame_withOther (c.setRxbuf (b.drop frameLen)) (b.take frameLen) a t n
  · rfl

/-- A received byte neither reads nor writes the accumulator, the transmit stream and the transmit-drop counter. -/
theorem rxByteOp_withOther (b : Byte) (c : Codec) (a : Half) (t : List Byte) (n : Word) :
    rxByteOp b (c.withOther a t n) = ((rxByteOp b c).1.withOther a t n, (rxByteOp b c).2) := by
  have h1 : (c.withOther a t n).linkUp = c.linkUp := rfl
  have h2 : (c.withOther a t n).rxbuf = c.rxbuf := rfl
  unfold rxByteOp
  rw [h1, h2]
  split
  · rfl
  · split
    · rfl
    · exact decide9_withOther c (c.rxbuf ++ [b]) a t n

theorem receive_withOther (bs : List Byte) (c : Codec) (a : Half) (t : List Byte) (n : Word) :
    receive (c.withOther a t n) bs = (receive c bs).withOther a t n ∧
      rxResults (c.withOther a t n) bs = rxResults c bs := by
  induction bs generalizing c with
  | nil => exact ⟨rfl, rfl⟩
  | cons b bs ih =>
    obtain ⟨h1, h2⟩ := ih (rxByteOp b c).1
    simp only [receive_cons, rxResults, rxByteOp_withOther, h1, h2, and_self]

/-- Receiving bytes leaves the accumulator, the transmit stream and the transmit-drop counter. -/
theorem receive_other (bs : List Byte) (c : Codec) : (receive c bs).crcAcc = c.crcAcc ∧
    (receive c bs).txStream = c.txStream ∧ (receive c bs).cntTxDropped = c.cntTxDropped := by
  have h := (receive_withOther bs c c.crcAcc c.txStream c.cntTxDropped).1
  have e : c.withOther c.crcAcc c.txStream c.cntTxDropped = c := rfl
  rw [e] at h
  have h1 := congrArg Codec.crcAcc h
  have h2 := congrArg Codec.txStream h
  have h3 := congrArg Codec.cntTxDropped h
  exact ⟨h1, h2, h3⟩

theorem completeFrame_filter (c : Codec) (f : List Byte) :
    (completeFrame c f).1.keyMod = c.keyMod ∧ (completeFrame c f).1.keySel = c.keySel := by
  cases h : crcRight f with
  | true => rw [completeFrame_right _ _ h]; exact ⟨rfl, rfl⟩
  | false => rw [completeFrame_wrong _ _ h]; exact ⟨rfl, rfl⟩

theorem rxByteOp_filter (b : Byte) (c : Codec) :
    (rxByteOp b c).1.keyMod = c.keyMod ∧ (rxByteOp b c).1.keySel = c.keySel := by
  unfold rxByteOp
  split
  · exact ⟨rfl, rfl⟩
  · split
    · exact ⟨rfl, rfl⟩
    · unfold decide9
      split
      · exact ⟨rfl, rfl⟩
      · split
        · exact ⟨rfl, rfl⟩
        · exact completeFrame_filter _ _
      · exact ⟨rfl, rfl⟩

/-- Receiving bytes leaves the keypad filter. -/
theorem receive_filter (bs : List Byte) (c : Codec) :
    (receive c bs).keyMod = c.keyMod ∧ (receive c bs).keySel = c.keySel := by
  induction bs generalizing c with
  | nil => exact ⟨rfl, rfl⟩
  | cons b bs ih =>
    obtain ⟨h1, h2⟩ := ih (rxByteOp b c).1
    obtain ⟨h3, h4⟩ := rxByteOp_filter b c
    exact ⟨h1.trans h3, h2.trans h4⟩

theorem completeFrame_withEarlier (c : Codec) (f : List Byte) (tx : List Byte) (fr : List Payload) (ke : List KeyEvent) :
    completeFrame (c.withEarlier tx fr ke) f = ((completeFrame c f).1.withEarlier tx fr ke, (completeFrame c f).2) := by
  cases h : crcRight f with
  | true =>
    rw [completeFrame_right _ _ h, completeFrame_right _ _ h]
    simp only [Codec.withEarlier, List.append_assoc]
    rfl
  | false => rw [completeFrame_wrong _ _ h, completeFrame_wrong _ _ h]; rfl

/-- A received byte does not read the output streams, and only appends to them. -/
theorem rxByteOp_withEarlier (b : Byte) (c : Codec) (tx : List Byte) (fr : List Payload) (ke : List KeyEvent) :
    rxByteOp b (c.withEarlier tx fr ke) = ((rxByteOp b c).1.withEarlier tx fr ke, (rxByteOp b c).2) := by
  have h1 : (c.withEarlier tx fr ke).linkUp = c.linkUp := rfl
  have h2 : (c.withEarlier tx fr ke).rxbuf = c.rxbuf := rfl
  unfold rxByteOp
  rw [h1, h2]
  split
  · rfl
  · split
    · rfl
    · unfold decide9
      split
      · rfl
      · split
        · rfl
        · exact completeFrame_withEarlier (c.setRxbuf ((c.rxbuf ++ [b]).drop frameLen))
            ((c.rxbuf ++ [b]).take frameLen) tx fr ke
      · rfl

theorem syncDrop_withOffsets (c : Codec) (b : List Byte) (n : Nat) (f e d x : Word) :
    syncDrop (c.withOffsets f e d x) b n = ((syncDrop c b n).1.withOffsets f e d x, (syncDrop c b n).2) := by
  simp only [syncDrop_eq, Codec.withOffsets, add_right_comm]

theorem completeFrame_withOffsets (c : Codec) (fr : List Byte) (f e d x : Word) :
    completeFrame (c.withOffsets f e d x) fr =
      ((completeFrame c fr).1.withOffsets f e d x, (completeFrame c fr).2) := by
  cases h : crcRight fr with
  | true =>
    rw [completeFrame_right _ _ h, completeFrame_right _ _ h]
    simp only [Codec.withOffsets, add_right_comm]
    rfl
  | false =>
    rw [completeFrame_wrong _ _ h, completeFrame_wrong _ _ h]
    simp only [Codec.withOffsets, add_right_comm]

/-- A received byte does not read the counters. -/
theorem rxByteOp_withOffsets (b : Byte) (c : Codec) (f e d x : Word) :
    rxByteOp b (c.withOffsets f e d x) = ((rxByteOp b c).1.withOffsets f e d x, (rxByteOp b c).2) := by
  have h1 : (c.withOffsets f e d x).linkUp = c.linkUp := rfl
  have h2 : (c.withOffsets f e d x).rxbuf = c.rxbuf := rfl
  unfold rxByteOp
  rw [h1, h2]
  split
  · rfl
  · split
    · rfl
    · unfold decide9
      split
      · exact syncDrop_withOffsets c _ _ f e d x
      · split
        · exact syncDrop_withOffsets c _ _ f e d x
        · exact completeFrame_withOffsets (c.setRxbuf ((c.rxbuf ++ [b]).drop frameLen))
            ((c.rxbuf ++ [b]).take frameLen) f e d x
      · exact syncDrop_withOffsets c _ _ f e d x

theorem receive_withOffsets (bs : List Byte) (c : Codec) (f e d x : Word) :
    receive (c.withOffsets f e d x) bs = (receive c bs).withOffsets f e d x := by
  induction bs generalizing c with
  | nil => rfl
  | cons b bs ih => rw [receive_cons, receive_cons, rxByteOp_withOffsets, ih]

/-- Everything a transmission does. -/
theorem transmit_eq (f : List Byte) (c : Codec) : transmit f c =
    if c.linkUp then ({ c with txStream := c.txStream ++ f }, ⟨.ok, .none, []⟩)
    else ({ c with cntTxDropped := c.cntTxDropped + 1#32 }, ⟨.eNotConnected, .none, []⟩) := rfl

/-- An instruction that puts bytes through the scanner does to the block what receiving them does. -/
theorem codecAfter_receives (i : Instr) (c : Codec) (h : receives i = true) : ∃ bs, codecAfter i c = receive c bs := by
  cases i
  case rxByte b => exact ⟨[b], rfl⟩
  case frameSetled => exact ⟨_, rfl⟩
  case frameSetbuzzer => exact ⟨_, rfl⟩
  case frameKeypadReport => exact ⟨_, rfl⟩
  all_goals simp [receives] at h

/-- The bound of the receive buffer survives every instruction (42_rx.md R141). -/
theorem codecAfter_bound (i : Instr) (c : Codec) (h : c.rxbuf.length ≤ 8) : (codecAfter i c).rxbuf.length ≤ 8 := by
  cases hr : receives i with
  | true =>
    obtain ⟨bs, hb⟩ := codecAfter_receives i c hr
    rw [hb]
    exact receive_bound bs c h
  | false =>
    cases i
    case rxByte | frameSetled | frameSetbuzzer | frameKeypadReport => simp [receives] at hr
    case setled | setbuz =>
      simp only [codecAfter, Instr.isFrame, opOf, transmit_eq, Bool.false_eq_true, if_false]
      split <;> exact h
    case regWrite idx v3 v2 v1 v0 =>
      by_cases h4 : idx = 0x04#8
      · subst h4
        simpa [codecAfter, Instr.isFrame, opOf, writeReg_filter] using h
      · simpa [codecAfter, Instr.isFrame, opOf, writeReg_frame _ _ _ h4] using h
    case linkUp | linkDown => simp [codecAfter, Instr.isFrame, opOf]
    all_goals exact h

/-- The frame of every payload is valid (41_tx.md R120, 43_decode.md R170). -/
theorem frameEncode_ok (p : Payload) : frameCheck (frameEncode p) = .ok := by
  have h : crcRight (frameEncode p) = true := (crcRight_nine _ _ _ _ _ _ _ _ _).2 ⟨rfl, rfl⟩
  simp [frameCheck, h]
  simp [frameEncode]

end Sys2Proof.Machine
end

