-- ==== Sys2Proof/Laws/PerInstr.lean ====
section
/-! SUPPORT. Statements made instruction by instruction. TableLength: the encoding of each instruction has the length that
its row of spec/opcode_table.json gives (length_bytes). -/

namespace Sys2Proof.Laws.TableLength

/-- The length_bytes of an instruction's row. -/
def rowLength : Instr → Nat
  | .nop | .crcInit | .crcRead | .linkUp | .linkDown | .cntClear | .illegal _ => 1
  | .crcByte _ | .setbuz _ | .rxByte _ | .regRead _ => 2
  | .setled _ _ => 3
  | .enc _ _ _ _ _ | .keydec _ _ _ _ _ | .regWrite _ _ _ _ _ => 6
  | .dec _ _ _ _ _ _ _ _ _ => 10
  | .frameSetled _ _ _ _ | .frameSetbuzzer _ _ _ | .frameKeypadReport _ _ _ _ _ => 9

def Statement (i : Instr) : Prop := (encode i).length = rowLength i

theorem nop : Statement .nop := rfl
theorem crcInit : Statement .crcInit := rfl
theorem crcByte (b : Byte) : Statement (.crcByte b) := rfl
theorem crcRead : Statement .crcRead := rfl
theorem enc (mod sel d1 d2 d3 : Byte) : Statement (.enc mod sel d1 d2 d3) := rfl
theorem setled (led color : Byte) : Statement (.setled led color) := rfl
theorem setbuz (on : Byte) : Statement (.setbuz on) := rfl
theorem rxByte (b : Byte) : Statement (.rxByte b) := rfl
theorem linkUp : Statement .linkUp := rfl
theorem linkDown : Statement .linkDown := rfl
theorem dec (b0 b1 b2 b3 b4 b5 b6 b7 b8 : Byte) : Statement (.dec b0 b1 b2 b3 b4 b5 b6 b7 b8) := rfl
theorem keydec (mod sel d1 d2 d3 : Byte) : Statement (.keydec mod sel d1 d2 d3) := rfl
theorem regRead (idx : Byte) : Statement (.regRead idx) := rfl
theorem regWrite (idx v3 v2 v1 v0 : Byte) : Statement (.regWrite idx v3 v2 v1 v0) := rfl
theorem cntClear : Statement .cntClear := rfl
theorem illegal (op : Byte) : Statement (.illegal op) := rfl
theorem frameSetled (a c h l : Byte) : Statement (.frameSetled a c h l) := rfl
theorem frameSetbuzzer (o : BitVec 1) (h l : Byte) : Statement (.frameSetbuzzer o h l) := rfl
theorem frameKeypadReport (d : BitVec 1) (s x h l : Byte) : Statement (.frameKeypadReport d s x h l) := rfl

end Sys2Proof.Laws.TableLength
end

