-- ==== Sys2Proof/Laws/Step.lean ====
section
/-! SUPPORT. Everything one step can do. -/

namespace Sys2Proof.Machine

/-- A port's turn: nothing waits, or an operation is decoded and performed, or what waits is a partial operation. -/
theorem fetchPort_cases (bytes : List Byte) (after : List Byte → State) :
    (bytes = [] ∧ fetchPort bytes after = .quiet (after [])) ∨
    (∃ i rest, decodeOp bytes = .ok (i, rest) ∧ fetchPort bytes after = .run i (after rest)) ∨
    (∃ op xs, bytes = op :: xs ∧ xs.length + 1 < opLength op ∧ decodeOp bytes = .error (.truncated op) ∧
      fetchPort bytes after = .refuse (.truncatedOperation op)) := by
  cases h : decodeOp bytes with
  | ok r => exact .inr (.inl ⟨r.1, r.2, rfl, by simp [fetchPort, h]⟩)
  | error e =>
    obtain ⟨hb, he⟩ | ⟨op, xs, hb, hl, he⟩ := decodeOp_error bytes e h
    · exact .inl ⟨hb, by simp [fetchPort, h, he]⟩
    · exact .inr (.inr ⟨op, xs, hb, hl, by rw [he], by simp [fetchPort, h, he]⟩)

/-- The wire's turn: nothing waits, or a whole frame row arrives, or one byte does. -/
theorem fetchWire_cases (bytes : List Byte) (after : List Byte → State) :
    (bytes = [] ∧ fetchWire bytes after = .quiet (after [])) ∨
    (∃ i, decodeFrame (bytes.take 9) = .ok i ∧ fetchWire bytes after = .run i (after (bytes.drop 9))) ∨
    (∃ b rest e, bytes = b :: rest ∧ decodeFrame (bytes.take 9) = .error e ∧
      fetchWire bytes after = .run (.rxByte b) (after rest)) := by
  cases h : decodeFrame (bytes.take 9) with
  | ok i => exact .inr (.inl ⟨i, rfl, by simp [fetchWire, h]⟩)
  | error e =>
    cases bytes with
    | nil => exact .inl ⟨rfl, by unfold fetchWire; rw [h]⟩
    | cons b rest => exact .inr (.inr ⟨b, rest, e, rfl, rfl, by unfold fetchWire; rw [h]⟩)

/-- The one inversion lemma of a step, turn by turn. -/
theorem step_cases (s : State) :
    (s.turns = [] ∧ step s = .next s) ∨
    (∃ ts, s.turns = .reset :: ts ∧ step s = .next { s with turns := ts }.resetInput) ∨
    (∃ ts, s.turns = .host :: ts ∧
      ((s.hostIn = [] ∧ step s = .next { s with turns := ts, hostIn := [], port := .host }) ∨
       (∃ i rest, decodeOp s.hostIn = .ok (i, rest) ∧
          step s = exec i { s with turns := ts, hostIn := rest, port := .host }) ∨
       (∃ op xs, s.hostIn = op :: xs ∧ xs.length + 1 < opLength op ∧ step s = .refused (.truncatedOperation op)))) ∨
    (∃ ts, s.turns = .link :: ts ∧
      ((s.linkIn = [] ∧ step s = .next { s with turns := ts, linkIn := [], port := .link }) ∨
       (∃ i rest, decodeOp s.linkIn = .ok (i, rest) ∧
          step s = exec i { s with turns := ts, linkIn := rest, port := .link }) ∨
       (∃ op xs, s.linkIn = op :: xs ∧ xs.length + 1 < opLength op ∧ step s = .refused (.truncatedOperation op)))) ∨
    (∃ ts, s.turns = .wire :: ts ∧
      ((s.wireIn = [] ∧ step s = .next { s with turns := ts, wireIn := [], port := .link }) ∨
       (∃ i, decodeFrame (s.wireIn.take 9) = .ok i ∧
          step s = exec i { s with turns := ts, wireIn := s.wireIn.drop 9, port := .link }) ∨
       (∃ b rest e, s.wireIn = b :: rest ∧ decodeFrame (s.wireIn.take 9) = .error e ∧
          step s = exec (.rxByte b) { s with turns := ts, wireIn := rest, port := .link }))) := by
  rcases h : s.turns with _ | ⟨t, ts⟩
  · exact .inl ⟨rfl, by simp [step, fetch, h]⟩
  cases t
  · refine .inr (.inr (.inl ⟨ts, rfl, ?_⟩))
    have hf : fetch s = fetchPort s.hostIn fun rest => { s with turns := ts, hostIn := rest, port := .host } := by
      simp [fetch, h]
    obtain ⟨hb, he⟩ | ⟨i, rest, hd, he⟩ | ⟨op, xs, hb, hl, _, he⟩ :=
      fetchPort_cases s.hostIn fun rest => { s with turns := ts, hostIn := rest, port := .host }
    · exact .inl ⟨hb, by simp [step, hf, he]⟩
    · exact .inr (.inl ⟨i, rest, hd, by simp [step, hf, he]⟩)
    · exact .inr (.inr ⟨op, xs, hb, hl, by simp [step, hf, he]⟩)
  · refine .inr (.inr (.inr (.inl ⟨ts, rfl, ?_⟩)))
    have hf : fetch s = fetchPort s.linkIn fun rest => { s with turns := ts, linkIn := rest, port := .link } := by
      simp [fetch, h]
    obtain ⟨hb, he⟩ | ⟨i, rest, hd, he⟩ | ⟨op, xs, hb, hl, _, he⟩ :=
      fetchPort_cases s.linkIn fun rest => { s with turns := ts, linkIn := rest, port := .link }
    · exact .inl ⟨hb, by simp [step, hf, he]⟩
    · exact .inr (.inl ⟨i, rest, hd, by simp [step, hf, he]⟩)
    · exact .inr (.inr ⟨op, xs, hb, hl, by simp [step, hf, he]⟩)
  · refine .inr (.inr (.inr (.inr ⟨ts, rfl, ?_⟩)))
    have hf : fetch s = fetchWire s.wireIn fun rest => { s with turns := ts, wireIn := rest, port := .link } := by
      simp [fetch, h]
    obtain ⟨hb, he⟩ | ⟨i, hd, he⟩ | ⟨b, rest, e, hb, hd, he⟩ :=
      fetchWire_cases s.wireIn fun rest => { s with turns := ts, wireIn := rest, port := .link }
    · exact .inl ⟨hb, by simp [step, hf, he]⟩
    · exact .inr (.inl ⟨i, hd, by simp [step, hf, he]⟩)
    · exact .inr (.inr ⟨b, rest, e, hb, hd, by simp [step, hf, he]⟩)
  · exact .inr (.inl ⟨ts, rfl, by simp [step, fetch, h]⟩)

/-- A step that answers a next state leaves the block as it was, or reset, or as one instruction leaves it. -/
theorem step_codec (s t : State) (h : step s = .next t) :
    t.codec = s.codec ∨ t.codec = Codec.reset ∨ ∃ i, t.codec = codecAfter i s.codec := by
  have run : ∀ (i : Instr) (u : State), step s = exec i u → u.codec = s.codec →
      ∃ i, t.codec = codecAfter i s.codec := by
    intro i u he hu
    rw [he, exec_eq] at h
    cases h
    exact ⟨i, by rw [← hu]⟩
  obtain ⟨_, he⟩ | ⟨ts, _, he⟩ | ⟨ts, _, ⟨_, he⟩ | ⟨i, rest, _, he⟩ | ⟨op, xs, _, _, he⟩⟩ |
      ⟨ts, _, ⟨_, he⟩ | ⟨i, rest, _, he⟩ | ⟨op, xs, _, _, he⟩⟩ |
      ⟨ts, _, ⟨_, he⟩ | ⟨i, _, he⟩ | ⟨b, rest, e, _, _, he⟩⟩ := step_cases s
  · rw [he] at h; cases h; exact .inl rfl
  · rw [he] at h; cases h; exact .inr (.inl rfl)
  · rw [he] at h; cases h; exact .inl rfl
  · exact .inr (.inr (run i _ he rfl))
  · rw [he] at h; cases h
  · rw [he] at h; cases h; exact .inl rfl
  · exact .inr (.inr (run i _ he rfl))
  · rw [he] at h; cases h
  · rw [he] at h; cases h; exact .inl rfl
  · exact .inr (.inr (run i _ he rfl))
  · exact .inr (.inr (run _ _ he rfl))

end Sys2Proof.Machine
end

