-- ==== Sys2Proof/Laws/WholeFrame.lean ====
section
/-! SUPPORT. Nine bytes received into an empty buffer: the one decision they bring (42_rx.md R144, 43_decode.md R172). -/

namespace Sys2Proof.Machine

open Sys2Proof.Safety

/-- Nine bytes into an empty buffer bring exactly one decision, on those nine. -/
theorem receive_nine (c : Codec) (f : List Byte) (hup : c.linkUp = true) (hr : c.rxbuf = []) (h9 : f.length = 9) :
    receive c f = (decide9 c f).1 := by
  obtain ⟨pre, b, rfl, h8⟩ : ∃ pre b, f = pre ++ [b] ∧ pre.length = 8 := by
    refine ⟨f.dropLast, f.getLast (by intro e; simp [e] at h9), (List.dropLast_append_getLast _).symm, by simp [h9]⟩
  rw [receive_append, receive_short pre c hup (by simp [hr, h8]), receive_cons, receive_nil,
    rxByteOp_nine _ _ (by simpa using hup) (by simp [h8])]
  simp only [hr, Codec.setRxbuf_rxbuf, List.nil_append]
  rfl

/-- That decision: a frame that the check accepts is a candidate yielded, anything else yields nothing. -/
theorem decide9_nine (c : Codec) (b0 b1 b2 b3 b4 b5 b6 b7 b8 : Byte) :
    (frameCheck [b0, b1, b2, b3, b4, b5, b6, b7, b8] = .ok ∧ b0 = stx ∧ b8 = etx ∧
      crcRight [b0, b1, b2, b3, b4, b5, b6, b7, b8] = true ∧
      decide9 c [b0, b1, b2, b3, b4, b5, b6, b7, b8] =
        completeFrame (c.setRxbuf []) [b0, b1, b2, b3, b4, b5, b6, b7, b8]) ∨
    (frameCheck [b0, b1, b2, b3, b4, b5, b6, b7, b8] ≠ .ok ∧
      (decide9 c [b0, b1, b2, b3, b4, b5, b6, b7, b8]).1.rxFrames = c.rxFrames ∧
      (decide9 c [b0, b1, b2, b3, b4, b5, b6, b7, b8]).1.keyEvents = c.keyEvents ∧
      (decide9 c [b0, b1, b2, b3, b4, b5, b6, b7, b8]).1.cntFramesOk = c.cntFramesOk) := by
  by_cases h0 : b0 = stx
  · by_cases h8 : b8 = etx
    · have e := decide9_candidate c [b1, b2, b3, b4, b5, b6, b7, b8] (by simpa using h8)
      rw [← h0] at e
      cases hc : crcRight [b0, b1, b2, b3, b4, b5, b6, b7, b8] with
      | true => exact .inl ⟨by simp [frameCheck, h0, h8]; subst h0 h8; simp [hc], h0, h8, rfl, e⟩
      | false =>
        refine .inr ⟨by simp [frameCheck, h0, h8]; subst h0 h8; simp [hc], ?_⟩
        rw [e]
        simp only [frameLen, List.take, completeFrame_wrong _ _ hc]
        exact ⟨rfl, rfl, rfl⟩
    · refine .inr ⟨by simp [frameCheck, h0, h8], ?_⟩
      subst h0
      rw [decide9_falseStx c [b1, b2, b3, b4, b5, b6, b7, b8] (by simpa using h8)]
      exact ⟨rfl, rfl, rfl⟩
  · refine .inr ⟨by simp [frameCheck, h0], ?_⟩
    obtain h | ⟨pre, post, hs, hp⟩ := split_at_first stx [b0, b1, b2, b3, b4, b5, b6, b7, b8]
    · rw [decide9_noStx _ _ h]; exact ⟨rfl, rfl, rfl⟩
    · have hne : pre ≠ [] := by rintro rfl; simp at hs; exact h0 hs.1
      rw [hs, decide9_noise _ _ _ hne hp]; exact ⟨rfl, rfl, rfl⟩

theorem nine_cases (f : List Byte) (h : f.length = 9) :
    ∃ b0 b1 b2 b3 b4 b5 b6 b7 b8, f = [b0, b1, b2, b3, b4, b5, b6, b7, b8] := by
  match f, h with
  | [b0, b1, b2, b3, b4, b5, b6, b7, b8], _ => exact ⟨_, _, _, _, _, _, _, _, _, rfl⟩

/-- A valid frame into an empty buffer is yielded, and the buffer is empty again. -/
theorem receive_valid (c : Codec) (f : List Byte) (hup : c.linkUp = true) (hr : c.rxbuf = []) (h9 : f.length = 9)
    (hf : frameCheck f = .ok) : receive c f = { c with
        rxFrames := c.rxFrames ++ [payloadOf f]
        cntFramesOk := c.cntFramesOk + 1#32
        keyEvents := c.keyEvents ++ keyEventsOf c (byteAt f 1) (byteAt f 2) (byteAt f 3) (byteAt f 4) } := by
  rw [receive_nine c f hup hr h9]
  obtain ⟨b0, b1, b2, b3, b4, b5, b6, b7, b8, rfl⟩ := nine_cases f h9
  obtain ⟨_, _, _, hc, e⟩ | ⟨h, _⟩ := decide9_nine c b0 b1 b2 b3 b4 b5 b6 b7 b8
  · rw [e, completeFrame_right _ _ hc]
    simp only [Codec.setRxbuf, hr]
    rfl
  · exact absurd hf h

/-- Nine bytes that are no valid frame, into an empty buffer, yield nothing. -/
theorem receive_invalid (c : Codec) (f : List Byte) (hup : c.linkUp = true) (hr : c.rxbuf = []) (h9 : f.length = 9)
    (hf : frameCheck f ≠ .ok) : (receive c f).rxFrames = c.rxFrames ∧ (receive c f).keyEvents = c.keyEvents ∧
      (receive c f).cntFramesOk = c.cntFramesOk := by
  rw [receive_nine c f hup hr h9]
  obtain ⟨b0, b1, b2, b3, b4, b5, b6, b7, b8, rfl⟩ := nine_cases f h9
  obtain ⟨h, _⟩ | ⟨_, h⟩ := decide9_nine c b0 b1 b2 b3 b4 b5 b6 b7 b8
  · exact absurd h hf
  · exact h

/-- A valid frame begins with STX, ends with ETX and carries its CRC. -/
theorem valid_shape (f : List Byte) (h9 : f.length = 9) (hf : frameCheck f = .ok) :
    ∃ mid, mid.length = 7 ∧ f = stx :: mid ++ [etx] ∧ crcRight f = true := by
  obtain ⟨b0, b1, b2, b3, b4, b5, b6, b7, b8, rfl⟩ := nine_cases f h9
  obtain ⟨_, h0, h8, hc, e⟩ | ⟨h, _⟩ := decide9_nine Codec.reset b0 b1 b2 b3 b4 b5 b6 b7 b8
  · exact ⟨[b1, b2, b3, b4, b5, b6, b7], rfl, by rw [h0, h8]; rfl, hc⟩
  · exact absurd hf h

/-- Emptying a buffer that holds only noise is invisible. -/
theorem quiet_clear (c : Codec) (h : stx ∉ c.rxbuf) : quiet (c.setRxbuf []) = quiet c := by
  simp [quiet, stripNoise_none _ h, Codec.setRxbuf]

end Sys2Proof.Machine
end

