-- ==== Sys2Proof/Tests/Slice0.lean ====
section
/-! SUPPORT. The model's own tests. Expected values are 95_test_vectors.md's, or read off the encodings of 30_encoding.md, as
each test says; the witness theorems show that the hypotheses of the statements can be met. -/

namespace Sys2Proof.Tests

open Sys2Proof Sys2Proof.Machine Sys2Proof.Safety

set_option maxRecDepth 20000

/-- The state a step or an instruction answers, if it answers one. -/
def answered (o : Host.Outcome State Fault Refusal) : Option State :=
  match o with
  | .next s => some s
  | .fault _ => none
  | .refused _ => none

/-- The block an instruction leaves. -/
def left (i : Instr) (s : State) : Option Codec := (answered (exec i s)).map (·.codec)

/-- The result record an instruction returns last. -/
def returned (i : Instr) (s : State) : Option Result :=
  (answered (exec i s)).bind fun t => t.results.getLast?.map (·.result)

/-- Right after reset, with the link up and these bytes in the receive buffer. -/
def linked (buf : List Byte) : State :=
  { State.reset with codec := { Codec.reset with linkUp := true, rxbuf := buf } }

/-! ### Well-formedness: each check refuses an ill-formed term -/

theorem test_illegal_assigned_opcode_illformed : (Instr.illegal 0x10#8).wellFormed = false := by decide
theorem test_illegal_unassigned_opcode_wellformed : (Instr.illegal 0x13#8).wellFormed = true := by decide
/-- V-LED, L1 blue: the CRC is 87 90. -/
theorem test_frameSetled_wellformed : (Instr.frameSetled 0x41#8 0x31#8 0x87#8 0x90#8).wellFormed = true := by
  decide
theorem test_frameSetled_bad_crc_illformed : (Instr.frameSetled 0x41#8 0x31#8 0x90#8 0x87#8).wellFormed = false := by
  decide
/-- V-BUZ, on: the CRC is F0 9C. -/
theorem test_frameSetbuzzer_wellformed : (Instr.frameSetbuzzer 1#1 0xF0#8 0x9C#8).wellFormed = true := by decide
theorem test_frameSetbuzzer_bad_crc_illformed : (Instr.frameSetbuzzer 0#1 0xF0#8 0x9C#8).wellFormed = false := by
  decide
/-- V-KEYFRAME, up, scan FF: the CRC is 48 A8. -/
theorem test_frameKeypadReport_wellformed :
    (Instr.frameKeypadReport 0#1 0xFF#8 0x20#8 0x48#8 0xA8#8).wellFormed = true := by decide
theorem test_frameKeypadReport_bad_crc_illformed :
    (Instr.frameKeypadReport 0#1 0xFF#8 0x20#8 0x48#8 0xA9#8).wellFormed = false := by decide

/-! ### Decoding: words written out from 30_encoding.md R76 and R82 to R84 -/

theorem test_decode_nop : decodeOp [0x00#8] = .ok (.nop, []) := by rfl
theorem test_decode_crcInit : decodeOp [0x10#8, 0x11#8] = .ok (.crcInit, [0x11#8]) := by rfl
theorem test_decode_crcByte : decodeOp [0x11#8, 0x31#8, 0x12#8] = .ok (.crcByte 0x31#8, [0x12#8]) := by rfl
theorem test_decode_crcRead : decodeOp [0x12#8] = .ok (.crcRead, []) := by rfl
theorem test_decode_enc : decodeOp [0x20#8, 0x11#8, 0x3A#8, 0x41#8, 0x31#8, 0x20#8] =
    .ok (.enc 0x11#8 0x3A#8 0x41#8 0x31#8 0x20#8, []) := by rfl
theorem test_decode_setled : decodeOp [0x21#8, 0x42#8, 0x30#8] = .ok (.setled 0x42#8 0x30#8, []) := by rfl
theorem test_decode_setbuz : decodeOp [0x22#8, 0x01#8] = .ok (.setbuz 0x01#8, []) := by rfl
theorem test_decode_rxByte : decodeOp [0x30#8, 0xFF#8] = .ok (.rxByte 0xFF#8, []) := by rfl
theorem test_decode_linkUp : decodeOp [0x31#8] = .ok (.linkUp, []) := by rfl
theorem test_decode_linkDown : decodeOp [0x32#8] = .ok (.linkDown, []) := by rfl
theorem test_decode_dec : decodeOp [0x40#8, 0x02#8, 0x11#8, 0x3A#8, 0x41#8, 0x31#8, 0x20#8, 0x90#8, 0x87#8, 0x03#8] =
    .ok (.dec 0x02#8 0x11#8 0x3A#8 0x41#8 0x31#8 0x20#8 0x90#8 0x87#8 0x03#8, []) := by rfl
theorem test_decode_keydec : decodeOp [0x41#8, 0x20#8, 0x3D#8, 0x30#8, 0x05#8, 0x77#8] =
    .ok (.keydec 0x20#8 0x3D#8 0x30#8 0x05#8 0x77#8, []) := by rfl
theorem test_decode_regRead : decodeOp [0x50#8, 0x06#8] = .ok (.regRead 0x06#8, []) := by rfl
theorem test_decode_regWrite : decodeOp [0x51#8, 0x04#8, 0xFF#8, 0xFE#8, 0x20#8, 0x3D#8] =
    .ok (.regWrite 0x04#8 0xFF#8 0xFE#8 0x20#8 0x3D#8, []) := by rfl
theorem test_decode_cntClear : decodeOp [0x52#8] = .ok (.cntClear, []) := by rfl
/-- V-ILL: the twelve bytes at the ends of the illegal ranges. -/
theorem test_decode_illegal : ∀ op ∈ [0x01#8, 0x0F#8, 0x13#8, 0x1F#8, 0x23#8, 0x2F#8, 0x33#8, 0x3F#8, 0x42#8, 0x4F#8, 0x53#8,
    0xFF#8], decodeOp [op, 0x12#8] = .ok (.illegal op, [0x12#8]) := by
  intro op h
  fin_cases h <;> rfl
/-- R82's pattern with a = 0x41, c = 0x31 and the CRC of V-LED. -/
theorem test_decode_frameSetled : decodeFrame [0b00000010#8, 0b00010001#8, 0b00111010#8, 0x41#8, 0x31#8, 0b00100000#8, 0x87#8,
    0x90#8, 0b00000011#8] = .ok (.frameSetled 0x41#8 0x31#8 0x87#8 0x90#8) := by rfl
/-- R83's pattern with o = 0. -/
theorem test_decode_frameSetbuzzer : decodeFrame [0b00000010#8, 0b00010001#8, 0b00111011#8, 0b00110000#8, 0b00100000#8,
    0b00100000#8, 0x30#8, 0xCD#8, 0b00000011#8] = .ok (.frameSetbuzzer 0#1 0x30#8 0xCD#8) := by rfl
/-- R84's pattern with d = 1, s = 0x05, x = 0x77. -/
theorem test_decode_frameKeypadReport : decodeFrame [0b00000010#8, 0b00010000#8, 0b00111101#8, 0b00110001#8, 0x05#8, 0x77#8,
    0x12#8, 0x34#8, 0b00000011#8] = .ok (.frameKeypadReport 1#1 0x05#8 0x77#8 0x12#8 0x34#8) := by rfl
/-- R79: a trailing partial operation is rejected by name. -/
theorem test_decode_truncated : decodeOp [0x21#8, 0x41#8] = .error (.truncated 0x21#8) := by rfl
/-- The SetBuzzer row fixes seven bits of DATA1: 0x32 is none of its frames. -/
theorem test_decode_no_frame_row : decodeFrame [0x02#8, 0x11#8, 0x3B#8, 0x32#8, 0x20#8, 0x20#8, 0x30#8, 0xCD#8, 0x03#8] =
    .error .noFrameRow := by rfl

/-! ### Table words (numbered as spec/opcode_table.json numbers them) -/

theorem test_table_nop : decodeTableWord 8 0x00 = some .nop := by rfl
theorem test_table_setled : decodeTableWord 24 0x314121 = some (.setled 0x41#8 0x31#8) := by rfl
theorem test_table_dec_opcode_only : decodeTableWord 8 0x40 =
    some (.dec 0x00#8 0x00#8 0x00#8 0x00#8 0x00#8 0x00#8 0x00#8 0x00#8 0x00#8) := by rfl
theorem test_table_illegal : decodeTableWord 8 0x13 = some (.illegal 0x13#8) := by rfl
/-- The three frame rows' match values. -/
theorem test_table_frameSetled : decodeTableWord 72 0x02113A000020000003 =
    some (.frameSetled 0x00#8 0x00#8 0x00#8 0x00#8) := by rfl
theorem test_table_frameSetbuzzer : decodeTableWord 72 0x02113B302020000003 =
    some (.frameSetbuzzer 0#1 0x00#8 0x00#8) := by rfl
theorem test_table_frameKeypadReport : decodeTableWord 72 0x02103D300000000003 =
    some (.frameKeypadReport 0#1 0x00#8 0x00#8 0x00#8 0x00#8) := by rfl
/-- Placed after reset, a word is the first instruction to run. -/
theorem test_placed_op_runs_first : (answered (step (State.reset.withFetchWord 8 0x31))).map (·.codec.linkUp) = some true := by
  decide
/-- A placed frame is received: V-LED, L1 blue, on a live link. -/
theorem test_placed_frame_runs_first :
    (answered (step ((linked []).withFetchWord 72 0x02113A413120879003))).map (·.codec.rxFrames) =
      some [⟨0x11#8, 0x3A#8, 0x41#8, 0x31#8, 0x20#8⟩] := by
  decide

/-! ### One step of each instruction -/

theorem test_nop : returned .nop State.reset = some ⟨.ok, .none, []⟩ := by decide

/-- R102: with crc_acc = 0x4B37, crc.init leaves 0xFFFF. -/
theorem test_crcInit : (left .crcInit { State.reset with codec := Codec.reset.setCrcAcc 0x4B37#16 }).map (·.crcAcc) =
    some 0xFFFF#16 := by decide

/-- V-CRC-3: b = 0x3D. -/
theorem test_crcByte : (left (.crcByte 0x3D#8) State.reset).map (·.crcAcc) = some 0x917E#16 := by decide
/-- V-CRC-1: the check value of "123456789". -/
theorem test_crc16_check_value : crc16 [0x31#8, 0x32#8, 0x33#8, 0x34#8, 0x35#8, 0x36#8, 0x37#8, 0x38#8, 0x39#8] =
    0x4B37#16 := by decide
/-- V-CRC-2: the CRC of a payload and its CRC bytes, high byte first, is no residue of 0; low byte first it is. -/
theorem test_crc16_residue :
    crc16 [0x11#8, 0x3A#8, 0x41#8, 0x31#8, 0x20#8, 0x87#8, 0x90#8] = 0xFE4F#16 ∧
      crc16 [0x11#8, 0x3A#8, 0x41#8, 0x31#8, 0x20#8, 0x90#8, 0x87#8] = 0x0000#16 := by decide
/-- V-CRC-TABLE: entries at both ends and in the middle. -/
theorem test_crcTable : crcTable 0x01#8 = 0xC0C1#16 ∧ crcTable 0x80#8 = 0xA001#16 ∧ crcTable 0xFF#8 = 0x4040#16 := by
  decide

/-- P3: after the bytes 11 3A 41 31 20 the accumulator reads 87 90. -/
theorem test_crcRead : returned .crcRead { State.reset with codec := Codec.reset.setCrcAcc 0x8790#16 } =
    some ⟨.ok, .none, [0x87#8, 0x90#8]⟩ := by decide

/-- V-ENC. -/
theorem test_enc : returned (.enc 0x01#8 0x02#8 0x03#8 0x04#8 0x05#8) State.reset = some ⟨.ok, .none,
    [0x02#8, 0x01#8, 0x02#8, 0x03#8, 0x04#8, 0x05#8, 0xBB#8, 0x2A#8, 0x03#8]⟩ := by decide

/-- V-LED, R3 red. -/
theorem test_setled : (left (.setled 0x61#8 0x32#8) (linked [])).map (·.txStream) =
    some [0x02#8, 0x11#8, 0x3A#8, 0x61#8, 0x32#8, 0x20#8, 0xBD#8, 0x91#8, 0x03#8] := by decide
/-- V-TX-DOWN. -/
theorem test_setled_down : left (.setled 0x41#8 0x31#8) State.reset = some { Codec.reset with cntTxDropped := 1#32 } := by
  decide

/-- V-BUZ: 0xFF is on. -/
theorem test_setbuz_on : (left (.setbuz 0xFF#8) (linked [])).map (·.txStream) =
    some [0x02#8, 0x11#8, 0x3B#8, 0x31#8, 0x20#8, 0x20#8, 0xF0#8, 0x9C#8, 0x03#8] := by decide
/-- V-TX-DOWN. -/
theorem test_setbuz_down : returned (.setbuz 0x00#8) State.reset = some ⟨.eNotConnected, .none, []⟩ := by decide

/-- V-RX-4: eight noise bytes before an STX. -/
theorem test_rxByte_noise : left (.rxByte 0x02#8) (linked [0x00#8, 0x11#8, 0x22#8, 0x33#8, 0x44#8, 0x55#8, 0x66#8, 0x77#8]) =
    some { (linked [0x02#8]).codec with cntSyncDrop := 8#32 } := by decide
/-- V-RX-WRAP: the CRC-drop counter wraps. -/
theorem test_rxByte_wrap : (left (.rxByte 0x03#8) { linked [] with codec := { (linked [0x02#8, 0x11#8, 0x3A#8, 0x41#8, 0x31#8,
    0x20#8, 0x87#8, 0x91#8]).codec with cntCrcErr := 0xFFFFFFFF#32 } }).map (fun c => (c.cntCrcErr, c.rxbuf, c.rxFrames)) =
      some (0#32, [], []) := by decide
/-- V-RX-CHUNK: the source's feed of the twelve bytes as one chunk leaves 02 02 and discards ten. -/
theorem test_feedChunk : feedChunk (linked []).codec [0x00#8, 0x41#8, 0x03#8, 0x00#8, 0x03#8, 0x00#8, 0x00#8, 0x00#8, 0x03#8,
    0x03#8, 0x02#8, 0x02#8] = { (linked [0x02#8, 0x02#8]).codec with cntSyncDrop := 10#32 } := by decide

theorem test_linkUp : left .linkUp { State.reset with codec := { Codec.reset with rxbuf := [0x02#8] } } =
    some (linked []).codec := by decide
theorem test_linkDown : left .linkDown (linked [0x02#8, 0x11#8]) = some Codec.reset := by decide

/-- V-DEC-1: STX is tested before the CRC. -/
theorem test_dec_bad_stx : returned (.dec 0x03#8 0x11#8 0x3A#8 0x41#8 0x31#8 0x20#8 0x87#8 0x91#8 0x03#8) State.reset =
    some ⟨.eBadStx, .none, []⟩ := by decide
/-- V-DEC-1: CRC bytes low byte first. -/
theorem test_dec_crc : returned (.dec 0x02#8 0x11#8 0x3A#8 0x41#8 0x31#8 0x20#8 0x90#8 0x87#8 0x03#8) State.reset =
    some ⟨.eCrc, .none, []⟩ := by decide

/-- The premise of the keypad vectors: 05 names key 3 and 03 names key 1. -/
def vectorTable (b : Byte) : Option KeyIndex := if b = 0x05#8 then some 3#8 else if b = 0x03#8 then some 1#8 else none

/-- V-KEY, under the vectors' table: DATA3 is not read, DATA1 is tested before the table. -/
theorem test_keydec_vectors :
    keydecResult (keydec vectorTable 0x10#8 0x3D#8 ⟨0x10#8, 0x3D#8, 0x31#8, 0x05#8, 0x77#8⟩) =
        ⟨.ok, .none, [0x03#8, 0x01#8]⟩ ∧
      keydecResult (keydec vectorTable 0x20#8 0x3D#8 ⟨0x20#8, 0x3D#8, 0x30#8, 0x05#8, 0x20#8⟩) =
        ⟨.ok, .none, [0x03#8, 0x00#8]⟩ ∧
      keydecResult (keydec vectorTable 0x10#8 0x3D#8 ⟨0x10#8, 0x3D#8, 0x32#8, 0x41#8, 0x20#8⟩) = ⟨.nBadState, .none, []⟩ ∧
      keydecResult (keydec vectorTable 0x10#8 0x3D#8 ⟨0x10#8, 0x3D#8, 0x31#8, 0x41#8, 0x20#8⟩) = ⟨.nUnmapped, .none, []⟩ := by
  decide
/-- V-KEY: SEL 0x3E under the reset filter. -/
theorem test_keydec_not_keypad : returned (.keydec 0x10#8 0x3E#8 0x31#8 0x05#8 0x20#8) State.reset =
    some ⟨.nNotKeypad, .none, []⟩ := by decide

/-- V-REG: RX_COUNT 3, LINK_UP 1. -/
theorem test_regRead_status : returned (.regRead 0x05#8) (linked [0x02#8, 0x11#8, 0x3A#8]) =
    some ⟨.ok, .none, [0x00#8, 0x00#8, 0x00#8, 0x07#8]⟩ := by decide
/-- V-REG. -/
theorem test_regRead_filter : returned (.regRead 0x04#8) State.reset =
    some ⟨.ok, .none, [0x00#8, 0x00#8, 0x10#8, 0x3D#8]⟩ := by decide

/-- V-REG: KEY_FILTER written with 0xFFFF203D. -/
theorem test_regWrite_filter : (left (.regWrite 0x04#8 0xFF#8 0xFF#8 0x20#8 0x3D#8) State.reset).map
    (fun c => (c.keyMod, c.keySel)) = some (0x20#8, 0x3D#8) := by decide
/-- V-REG. -/
theorem test_regWrite_readOnly : returned (.regWrite 0x06#8 0x00#8 0x00#8 0x00#8 0x00#8) State.reset =
    some ⟨.eRoReg, .none, []⟩ := by decide

/-- R195: the buffer and the streams keep their contents. -/
theorem test_cntClear : left .cntClear { State.reset with codec := { (linked [0x02#8]).codec with
    cntFramesOk := 1#32, cntCrcErr := 2#32, cntSyncDrop := 3#32, cntTxDropped := 4#32 } } = some (linked [0x02#8]).codec := by
  decide

/-- V-ILL. -/
theorem test_illegal : returned (.illegal 0x13#8) State.reset = some ⟨.eIllegalOp, .none, []⟩ := by decide

/-- V-LED, L1 blue, arriving on a live link. -/
theorem test_frameSetled : returned (.frameSetled 0x41#8 0x31#8 0x87#8 0x90#8) (linked []) =
    some ⟨.ok, .frame, [0x11#8, 0x3A#8, 0x41#8, 0x31#8, 0x20#8]⟩ := by decide
/-- V-RX-FLIP: a flipped bit in CRC_LO. -/
theorem test_frameSetled_flipped : left (.frameSetled 0x41#8 0x31#8 0x87#8 0x91#8) (linked []) =
    some { (linked []).codec with cntCrcErr := 1#32 } := by decide
/-- V-BUZ, off, arriving. -/
theorem test_frameSetbuzzer : returned (.frameSetbuzzer 0#1 0x30#8 0xCD#8) (linked []) =
    some ⟨.ok, .frame, [0x11#8, 0x3B#8, 0x30#8, 0x20#8, 0x20#8]⟩ := by decide
/-- V-RX-KEY-1, up to the key event, which depends on the scan table. -/
theorem test_frameKeypadReport : (left (.frameKeypadReport 1#1 0x05#8 0x20#8 0x28#8 0xBB#8) (linked [])).map
    (fun c => (c.rxFrames, c.cntFramesOk, c.rxbuf)) = some ([⟨0x10#8, 0x3D#8, 0x31#8, 0x05#8, 0x20#8⟩], 1#32, []) := by
  decide
/-- A frame on a down link leaves the block as it was (R143). -/
theorem test_frameKeypadReport_down : left (.frameKeypadReport 1#1 0x05#8 0x20#8 0x28#8 0xBB#8) State.reset =
    some Codec.reset := by decide

/-! ### The assembler (the first columns of the programs of 95_test_vectors.md) -/

/-- The bytes a line assembles to. -/
def assembled (line : String) : Option (List Byte) :=
  match assembleLine line.toList with
  | .ok is => some (is.flatMap encode)
  | .error _ => none

theorem test_asm_symbols : assembled "setled L1, blue   ; P1" = some [0x21#8, 0x41#8, 0x31#8] := by decide
theorem test_asm_setbuz_off : assembled "setbuz off" = some [0x22#8, 0x00#8] := by decide
/-- A bare number is decimal (R86; log entry 20). -/
theorem test_asm_bare_number : assembled "rx.bytes 41, 0x41" = some [0x30#8, 0x29#8, 0x30#8, 0x41#8] := by decide
/-- Log entry 15. -/
theorem test_asm_setbuz_other_symbol : assembled "setbuz L1" = none := by decide
theorem test_asm_regWrite : assembled "reg.write STATUS, 0" = some [0x51#8, 0x05#8, 0x00#8, 0x00#8, 0x00#8, 0x00#8] := by
  decide
theorem test_asm_keyfilter : assembled "keyfilter 0x20, 0x3D" =
    some [0x51#8, 0x04#8, 0x00#8, 0x00#8, 0x20#8, 0x3D#8] := by decide
theorem test_asm_rxFrame : assembled "rx.frame 0x10, 0x3D, 0x30, 0x05, 0x20" = some [0x30#8, 0x02#8, 0x30#8, 0x10#8, 0x30#8,
    0x3D#8, 0x30#8, 0x30#8, 0x30#8, 0x05#8, 0x30#8, 0x20#8, 0x30#8, 0xE8#8, 0x30#8, 0xEA#8, 0x30#8, 0x03#8] := by
  decide
theorem test_asm_unknown : assembled "jump 3" = none := by decide

/-! ### Witnesses: each statement's hypotheses are met -/

theorem witness_reset_turn : ({ State.reset with turns := [.reset, .host] } : State).turns = .reset :: [.host] := by rfl

/-- A buffer at its bound of 8, and a next byte that the step takes. -/
theorem witness_bound_and_step : RxBound (linked [2#8, 3#8, 3#8, 3#8, 3#8, 3#8, 3#8, 3#8]) ∧ ∃ t, step
    { linked [2#8, 3#8, 3#8, 3#8, 3#8, 3#8, 3#8, 3#8] with turns := [.link], linkIn := [0x30#8, 0x02#8] } = .next t :=
  ⟨by decide, _, rfl⟩

/-- Instructions outside each field's writers. -/
theorem witness_not_a_writer : receives .nop = false ∧ isLinkEvent .nop = false ∧ Instr.nop ≠ .crcInit ∧
    (∀ b, Instr.nop ≠ .crcByte b) ∧ (∀ v3 v2 v1 v0, Instr.regWrite 0x05#8 0#8 0#8 0#8 0#8 ≠ .regWrite 0x04#8 v3 v2 v1 v0) ∧
    Instr.nop ≠ .cntClear ∧ transmits .nop = false := by
  simp [receives, isLinkEvent, transmits]

/-- REG.READ next to CRC_ACC. -/
theorem witness_ignores_accumulator : inCrcGroup (.regRead 0x05#8) = false ∧
    Instr.regRead 0x05#8 ≠ .regRead 0x06#8 := by decide

theorem witness_wellformed_operation : (Instr.illegal 0xFF#8).isFrame = false ∧ (Instr.illegal 0xFF#8).wellFormed = true ∧
    decodeOp [0xFF#8] = .ok (.illegal 0xFF#8, []) := ⟨rfl, by decide, rfl⟩

theorem witness_frame_row : (Instr.frameSetled 0#8 0xFF#8 0#8 0#8).isFrame = true := by rfl

/-- DEC with its nine operand bytes, and with eight; an opcode next to the last of its group. -/
theorem witness_operation_lengths : opLength 0x40#8 ≤ (List.replicate 9 0#8).length + 1 ∧
    (List.replicate 8 0#8).length + 1 < opLength 0x40#8 ∧
    0x13#8 ∉ [0x00#8, 0x10#8, 0x11#8, 0x12#8, 0x20#8, 0x21#8, 0x22#8, 0x30#8, 0x31#8, 0x32#8, 0x40#8, 0x41#8, 0x50#8,
      0x51#8, 0x52#8] := by decide

/-- The four ways a step performs an instruction. -/
theorem witness_turns :
    decodeOp ({ State.reset with turns := [.host], hostIn := [0x12#8] } : State).hostIn = .ok (.crcRead, []) ∧
    decodeOp ({ State.reset with turns := [.link], linkIn := [0x31#8] } : State).linkIn = .ok (.linkUp, []) ∧
    decodeFrame (([0x02#8, 0x11#8, 0x3A#8, 0#8, 0#8, 0x20#8, 0#8, 0#8, 0x03#8, 0xFF#8] : List Byte).take 9) =
      .ok (.frameSetled 0#8 0#8 0#8 0#8) ∧
    decodeFrame (([0x02#8] : List Byte).take 9) = .error .notNineBytes := ⟨rfl, rfl, rfl, rfl⟩

/-- No turn, and a turn of each port with nothing waiting. -/
theorem witness_quiet : State.reset.turns = [] ∧
    (({ State.reset with turns := [.host] } : State).turns = .host :: [] ∧
      ({ State.reset with turns := [.host] } : State).hostIn = []) ∧
    (({ State.reset with turns := [.link] } : State).turns = .link :: [] ∧
      ({ State.reset with turns := [.link] } : State).linkIn = []) ∧
    (({ State.reset with turns := [.wire] } : State).turns = .wire :: [] ∧
      ({ State.reset with turns := [.wire] } : State).wireIn = []) := by decide

/-- A partial operation is refused by name. -/
theorem witness_truncated : step { State.reset with turns := [.host], hostIn := [0x21#8, 0x41#8] } =
    .refused (.truncatedOperation 0x21#8) := by rfl

theorem witness_whole_ports : PortsWhole { State.reset with hostIn := [0x21#8, 0x41#8, 0x31#8, 0x13#8] } :=
  ⟨⟨[.setled 0x41#8 0x31#8, .illegal 0x13#8], by decide, rfl⟩, ⟨[], by simp, rfl⟩⟩

theorem witness_table_word : decodeTableWord 16 0x0611 = some (.crcByte 0x06#8) ∧
    decodeTableWord 72 0x02113A413120879003 = some (.frameSetled 0x41#8 0x31#8 0x87#8 0x90#8) := ⟨rfl, rfl⟩

/-- The first and the last reserved register index, and the first and last of each other class. -/
theorem witness_register_classes : 0x07#8 ≤ 0x07#8 ∧ 0x07#8 ≤ 0xFF#8 ∧
    0x00#8 ∈ [0x00#8, 0x01#8, 0x02#8, 0x03#8, 0x05#8, 0x06#8] ∧
    0x06#8 ∈ [0x00#8, 0x01#8, 0x02#8, 0x03#8, 0x05#8, 0x06#8] ∧
    0x04#8 ∉ [0x00#8, 0x01#8, 0x02#8, 0x03#8, 0x05#8, 0x06#8] ∧ ¬0x07#8 ≤ 0x06#8 := by decide

theorem witness_pure : isPure (.dec 0#8 0#8 0#8 0#8 0#8 0#8 0#8 0#8 0#8) = true ∧ isPure (.illegal 0x13#8) = true ∧
    (Instr.cntClear = .crcInit ∨ Instr.cntClear = .cntClear) := by decide

/-- V-LED's frame is valid; the first and the last bit that its CRC check must catch. -/
theorem witness_crc_bits :
    let f := [0x02#8, 0x11#8, 0x3A#8, 0x41#8, 0x31#8, 0x20#8, 0x87#8, 0x90#8, 0x03#8]
    f.length = 9 ∧ frameCheck f = .ok ∧ (8 ≤ 8 ∧ 8 < 64) ∧ (8 ≤ 63 ∧ 63 < 64) := by decide

/-- Both link states, for both commands. -/
theorem witness_commands : (linked []).codec.linkUp = true ∧ State.reset.codec.linkUp = false ∧
    (Instr.setled 0x41#8 0x31#8 = .setled 0x41#8 0x31#8 ∧ 0x3A#8 = 0x3A#8) ∧
    (∃ on, Instr.setbuz 0x00#8 = .setbuz on ∧ 0x30#8 = if on = 0x00#8 then 0x30#8 else 0x31#8) :=
  ⟨rfl, rfl, ⟨rfl, rfl⟩, 0x00#8, rfl, rfl⟩

/-- Each case of the scanner: 7 and 8 bytes buffered, no STX, one and eight bytes of noise, a false STX, a candidate. -/
theorem witness_scanner_cases :
    ((linked (List.replicate 7 2#8)).codec.rxbuf.length < 8 ∧ RxBound (linked (List.replicate 7 2#8))) ∧
    ((linked (List.replicate 8 0#8)).codec.rxbuf.length = 8 ∧ 0x02#8 ∉ List.replicate 8 0#8 ++ [0x03#8]) ∧
    (List.replicate 8 0#8 ++ [0x02#8] = List.replicate 8 0#8 ++ 0x02#8 :: [] ∧ List.replicate 8 0#8 ≠ [] ∧
      0x02#8 ∉ List.replicate 8 0#8) ∧
    ((0x00#8 :: List.replicate 7 2#8) ++ [0x03#8] = [0x00#8] ++ 0x02#8 :: (List.replicate 6 2#8 ++ [0x03#8]) ∧
      0x02#8 ∉ [0x00#8]) ∧
    ((linked (List.replicate 8 2#8)).codec.rxbuf = 0x02#8 :: List.replicate 7 2#8 ∧ (List.replicate 7 2#8).length = 7 ∧
      0x02#8 ≠ 0x03#8) := by decide

/-- A candidate with the right CRC (V-RX-8), and one with a wrong one. -/
theorem witness_candidates :
    RxBound (linked [2#8, 2#8, 2#8, 2#8, 2#8, 2#8, 0x19#8, 0x7D#8]) ∧
    (linked [2#8, 2#8, 2#8, 2#8, 2#8, 2#8, 0x19#8, 0x7D#8]).codec.rxbuf = [0x02#8, 2#8, 2#8, 2#8, 2#8, 2#8, 0x19#8, 0x7D#8] ∧
    (0x19#8 = (crc16 [2#8, 2#8, 2#8, 2#8, 2#8]).extractLsb' 8 8 ∧ 0x7D#8 = (crc16 [2#8, 2#8, 2#8, 2#8, 2#8]).extractLsb' 0 8) ∧
    ¬(0x7D#8 = (crc16 [2#8, 2#8, 2#8, 2#8, 2#8]).extractLsb' 8 8 ∧
      0x19#8 = (crc16 [2#8, 2#8, 2#8, 2#8, 2#8]).extractLsb' 0 8) := by decide

/-- A live link with a buffer that holds noise and no STX, garbage without one, and a valid frame (V-LED). -/
theorem witness_no_stx : (linked [0x03#8, 0x00#8]).codec.linkUp = true ∧ RxBound (linked [0x03#8, 0x00#8]) ∧
    0x02#8 ∉ (linked [0x03#8, 0x00#8]).codec.rxbuf ∧ 0x02#8 ∉ [0x00#8, 0xFF#8, 0x41#8] ∧
    [0x02#8, 0x11#8, 0x3A#8, 0x41#8, 0x31#8, 0x20#8, 0x87#8, 0x90#8, 0x03#8].length = 9 ∧
    frameCheck [0x02#8, 0x11#8, 0x3A#8, 0x41#8, 0x31#8, 0x20#8, 0x87#8, 0x90#8, 0x03#8] = .ok := by decide

/-- Two valid frames (V-RX-TWO), and a split of their bytes. -/
theorem witness_valid_frames : (linked [0x00#8]).codec.linkUp = true ∧ RxBound (linked [0x00#8]) ∧
    0x02#8 ∉ (linked [0x00#8]).codec.rxbuf ∧
    frameCheck [0x02#8, 0x11#8, 0x3A#8, 0x41#8, 0x31#8, 0x20#8, 0x87#8, 0x90#8, 0x03#8] = .ok ∧
    frameCheck [0x02#8, 0x11#8, 0x3B#8, 0x31#8, 0x20#8, 0x20#8, 0xF0#8, 0x9C#8, 0x03#8] = .ok ∧
    ([[0x02#8, 0x11#8, 0x3A#8, 0x41#8], [0x31#8, 0x20#8, 0x87#8, 0x90#8, 0x03#8, 0x02#8, 0x11#8],
        [0x3B#8, 0x31#8, 0x20#8, 0x20#8, 0xF0#8, 0x9C#8, 0x03#8]] : List (List Byte)).flatten =
      [0x02#8, 0x11#8, 0x3A#8, 0x41#8, 0x31#8, 0x20#8, 0x87#8, 0x90#8, 0x03#8] ++
        [0x02#8, 0x11#8, 0x3B#8, 0x31#8, 0x20#8, 0x20#8, 0xF0#8, 0x9C#8, 0x03#8] := by decide

/-- V-LED's frame, an empty buffer on a live link, and the first and the last bit of the frame. -/
theorem witness_frame_bits :
    let f := [0x02#8, 0x11#8, 0x3A#8, 0x41#8, 0x31#8, 0x20#8, 0x87#8, 0x90#8, 0x03#8]
    (linked []).codec.linkUp = true ∧ (linked []).codec.rxbuf = [] ∧ f.length = 9 ∧ frameCheck f = .ok ∧ 0 < 72 ∧
      71 < 72 := by decide

/-- Two buffers with the same bytes from the STX on, one full. -/
theorem witness_leading_noise : (linked []).codec.linkUp = true ∧ 0x02#8 ∉ List.replicate 7 0#8 ∧ 0x02#8 ∉ [0x03#8] ∧
    (List.replicate 7 0#8 ++ [0x02#8]).length ≤ 8 ∧ ([0x03#8] ++ [0x02#8]).length ≤ 8 := by decide

theorem witness_no_link_up : ∀ i ∈ [Instr.rxByte 0x02#8, .linkDown, .setled 0#8 0#8, .frameSetled 0#8 0#8 0#8 0#8],
    i ≠ .linkUp := by decide

/-- The four outcomes of DEC, each by its own premises (V-DEC-1). -/
theorem witness_dec_cases : 0x03#8 ≠ 0x02#8 ∧ 0x02#8 ≠ 0x03#8 ∧
    (0x87#8 = (crc16 [0x11#8, 0x3A#8, 0x41#8, 0x31#8, 0x20#8]).extractLsb' 8 8 ∧
      0x90#8 = (crc16 [0x11#8, 0x3A#8, 0x41#8, 0x31#8, 0x20#8]).extractLsb' 0 8) ∧
    0x91#8 ≠ (crc16 [0x11#8, 0x3A#8, 0x41#8, 0x31#8, 0x20#8]).extractLsb' 0 8 := by decide

theorem witness_encoded_frame : (linked []).codec.linkUp = true ∧ (linked []).codec.rxbuf = [] ∧ frameEncode ⟨0x11#8, 0x3A#8, 0x41#8, 0x31#8, 0x20#8⟩ =
    [0x02#8, 0x11#8, 0x3A#8, 0x41#8, 0x31#8, 0x20#8, 0x87#8, 0x90#8, 0x03#8] := by decide

/-- The three tests of KEYDEC under the reset filter: SEL one off, DATA1 on both sides of the two state codes, a pass. -/
theorem witness_keydec_cases : 0x3E#8 ≠ State.reset.codec.keySel ∧
    (0x10#8 = State.reset.codec.keyMod ∧ 0x3D#8 = State.reset.codec.keySel) ∧ (0x32#8 ≠ 0x31#8 ∧ 0x32#8 ≠ 0x30#8) ∧
    (0x2F#8 ≠ 0x31#8 ∧ 0x2F#8 ≠ 0x30#8) ∧ (0x30#8 = 0x31#8 ∨ 0x30#8 = 0x30#8) := by decide

/-- An arriving frame row, well formed and not. -/
theorem witness_arriving_frame : (linked []).codec.linkUp = true ∧ (linked []).codec.rxbuf = [] ∧
    (Instr.frameSetled 0x41#8 0x31#8 0x87#8 0x90#8).isFrame = true ∧ encode (.frameSetled 0x41#8 0x31#8 0x87#8 0x90#8) =
      [0x02#8, 0x11#8, 0x3A#8, 0x41#8, 0x31#8, 0x20#8, 0x87#8, 0x90#8, 0x03#8] ∧
    (Instr.frameSetled 0x41#8 0x31#8 0x87#8 0x90#8).wellFormed = true ∧
    (Instr.frameSetled 0x41#8 0x31#8 0x87#8 0x91#8).wellFormed = false := by decide

theorem witness_commuting : inCrcGroup (.crcByte 0x31#8) = true ∧ inCrcGroup (.regRead 0x05#8) = false ∧
    Instr.regRead 0x05#8 ≠ .regRead 0x06#8 ∧ transmits (.setbuz 0x01#8) = true := by decide

end Sys2Proof.Tests
end

section
/-! The scan table (00_scope.md R10, 43_decode.md R177). -/

namespace Sys2Proof.Config

/-- The keys that the twelve surely named scan codes give, in the order of their numbers under `codes`. -/
def twelveKeys (keys : Equiv.Perm KeyIndex) : List KeyIndex :=
  List.ofFn fun i : Fin 12 => keys (BitVec.ofNat 8 i.val)

theorem twelveKeys_length (keys : Equiv.Perm KeyIndex) : (twelveKeys keys).length = 12 :=
  List.length_ofFn

theorem twelveKeys_nodup (keys : Equiv.Perm KeyIndex) : (twelveKeys keys).Nodup :=
  List.nodup_ofFn.2 (keys_of_twelve_injective keys)

/-- Each of the twelve is in the image of a table of this form, whatever its other scan codes name. -/
theorem tableOf_hits_twelveKeys (codes : Equiv.Perm Byte) (keys : Equiv.Perm KeyIndex)
    (other : Byte → Option KeyIndex) {k : KeyIndex} (hk : k ∈ twelveKeys keys) :
    ∃ b, tableOf codes keys other b = some k := by
  obtain ⟨i, rfl⟩ := (List.mem_ofFn' _ _).1 hk
  exact ⟨codes.symm (BitVec.ofNat 8 i.val), tableOf_names_twelve codes keys other i⟩

end Sys2Proof.Config

namespace Sys2Proof

/-- Settles O54: the twelve keys are distinct and in the image of every table of the form `tableOf`, so of the free
scan table (log entry 5), whatever the values of its three parts are. -/
theorem scanTableNamesTwelveKeys : Obligations.ScanTableNamesTwelveKeys :=
  ⟨Config.twelveKeys Config.keyNumbers, Config.twelveKeys_nodup _, (Config.twelveKeys_length _).ge,
    fun _ hk => Config.tableOf_hits_twelveKeys Config.scanCodes _ Config.otherScanCodes hk⟩

end Sys2Proof
end

section
/-! What an instruction does not see of the block (10_state.md R25, R28): if an operation answers alike, and leaves the same
behind, whatever `g` put into the block beforehand, so does every instruction made of such operations. -/

namespace Sys2Proof.Machine

open Sys2Proof.Safety

/-- The operation does not see what `g` does to the block: `g` may come before it or after it, and its record is the same. -/
def Unseen (g : Codec → Codec) (op : Codec → Codec × Result) : Prop :=
  ∀ c, op (g c) = (g (op c).1, (op c).2)

/-- What no single received byte sees, no run of received bytes sees. -/
theorem receive_unseen {g : Codec → Codec} (hrx : ∀ b, Unseen g (rxByteOp b)) (bs : List Byte) (c : Codec) :
    receive (g c) bs = g (receive c bs) ∧ rxResults (g c) bs = rxResults c bs := by
  induction bs generalizing c with
  | nil => exact ⟨rfl, rfl⟩
  | cons b bs ih =>
    obtain ⟨hc, hr⟩ := ih (rxByteOp b c).1
    simp only [receive_cons, rxResults, hrx b c, hc, hr, and_self]

/-- An instruction answers the same next state, with the same done to its block, when neither its operation nor a received
byte sees what was done. -/
theorem exec_unseen {g : Codec → Codec} {i : Instr} (hrx : ∀ b, Unseen g (rxByteOp b)) (hop : Unseen g (opOf i))
    {s t : State} (ht : exec i s = .next t) :
    exec i { s with codec := g s.codec } = .next { t with codec := g t.codec } := by
  have hcodec : codecAfter i (g s.codec) = g (codecAfter i s.codec) := by
    unfold codecAfter
    split
    · exact (receive_unseen hrx _ _).1
    · rw [hop]
  have hrecords : recordsOf i (g s.codec) = recordsOf i s.codec := by
    unfold recordsOf
    split
    · exact (receive_unseen hrx _ _).2
    · rw [hop]
  rw [exec_eq] at ht ⊢
  cases ht
  simp only [hcodec, hrecords]

/-- REG.WRITE sees nothing that setting the keypad filter does not see. -/
theorem writeReg_unseen {g : Codec → Codec} (hset : ∀ c m s, (g c).setKeyFilter m s = g (c.setKeyFilter m s))
    (idx : Byte) (v : Word) : Unseen g (writeReg idx v) := by
  intro c
  unfold writeReg
  split
  · rw [hset]
  all_goals rfl

/-- A transmission sees nothing but the link, and what its two outcomes see. -/
theorem transmit_unseen {g : Codec → Codec} (hlink : ∀ c, (g c).linkUp = c.linkUp)
    (hsend : ∀ c f, (g c).emitTx f = g (c.emitTx f)) (hdrop : ∀ c, (g c).countTxDropped = g c.countTxDropped)
    (f : List Byte) : Unseen g (transmit f) := by
  intro c
  unfold transmit
  rw [hlink, hsend, hdrop]
  split <;> rfl

/-! ### Earlier output on the streams -/

theorem transmit_withEarlier (f tx : List Byte) (fr : List Payload) (ke : List KeyEvent) :
    Unseen (fun c => c.withEarlier tx fr ke) (transmit f) :=
  transmit_unseen (g := (·.withEarlier tx fr ke)) (fun _ => rfl)
    (fun _ _ => by simp only [Codec.emitTx, Codec.withEarlier, List.append_assoc]) (fun _ => rfl) f

/-- No operation sees the earlier output. -/
theorem opOf_withEarlier (i : Instr) (tx : List Byte) (fr : List Payload) (ke : List KeyEvent) :
    Unseen (fun c => c.withEarlier tx fr ke) (opOf i) := by
  cases i
  case setled | setbuz => exact transmit_withEarlier _ tx fr ke
  case rxByte b => exact fun c => rxByteOp_withEarlier b c tx fr ke
  case regWrite => exact writeReg_unseen (fun _ _ _ => rfl) _ _
  all_goals exact fun _ => rfl

/-! ### Another value in the accumulator -/

theorem rxByteOp_setCrcAcc (b : Byte) (v : Half) : Unseen (fun c => c.setCrcAcc v) (rxByteOp b) := by
  intro c
  obtain ⟨-, htx, hdropped⟩ : _ ∧ (rxByteOp b c).1.txStream = c.txStream ∧
    (rxByteOp b c).1.cntTxDropped = c.cntTxDropped := receive_other [b] c
  have h := rxByteOp_withOther b c v c.txStream c.cntTxDropped
  conv_rhs at h => rw [← htx, ← hdropped]
  exact h

/-- Every register but CRC_ACC reads the same. -/
theorem readReg_setCrcAcc {idx : Byte} (c : Codec) (v : Half) (h6 : idx ≠ 0x06#8) :
    readReg (c.setCrcAcc v) idx = readReg c idx := by
  unfold readReg
  split
  case h_7 hidx => exact absurd (byte_of_toNat idx 6 hidx) h6
  all_goals rfl

/-- Outside the CRC generator only REG.READ of CRC_ACC sees the accumulator. -/
theorem opOf_setCrcAcc (i : Instr) (v : Half) (hi : inCrcGroup i = false) (h6 : i ≠ .regRead 0x06#8) :
    Unseen (fun c => c.setCrcAcc v) (opOf i) := by
  cases i
  case crcInit | crcByte | crcRead => simp [inCrcGroup] at hi
  case setled | setbuz => exact transmit_unseen (g := (·.setCrcAcc v)) (fun _ => rfl) (fun _ _ => rfl) (fun _ => rfl) _
  case rxByte b => exact rxByteOp_setCrcAcc b v
  case regWrite => exact writeReg_unseen (fun _ _ _ => rfl) _ _
  case regRead idx =>
    have hidx : idx ≠ 0x06#8 := fun h => h6 (congrArg Instr.regRead h)
    exact fun c => by simp only [opOf, readReg_setCrcAcc c v hidx]
  all_goals exact fun _ => rfl

end Sys2Proof.Machine

namespace Sys2Proof

open Machine Safety

/-- Settles O6: no operation and no received byte sees earlier output, so no instruction does. -/
theorem streamsAreOnlyAppended : Obligations.StreamsAreOnlyAppended := by
  intro i s tx fr ke
  obtain ⟨t, ht⟩ := exec_completes i s
  exact ⟨t, ht, exec_unseen (fun b c => rxByteOp_withEarlier b c tx fr ke) (opOf_withEarlier i tx fr ke) ht⟩

/-- Settles O8: outside the CRC generator and REG.READ of CRC_ACC no operation and no received byte sees the accumulator, so
no instruction does; and putting its own value back changes nothing, so none writes it. -/
theorem framePathsIgnoreTheAccumulator : Obligations.FramePathsIgnoreTheAccumulator := by
  intro i s v hi h6
  obtain ⟨t, ht⟩ := exec_completes i s
  have unseen (w : Half) : exec i (withAccumulator w s) = .next (withAccumulator w t) :=
    exec_unseen (rxByteOp_setCrcAcc · w) (opOf_setCrcAcc i w hi h6) ht
  have hown : t = withAccumulator s.codec.crcAcc t := by
    simpa [withAccumulator, ht] using unseen s.codec.crcAcc
  exact ⟨t, ht, congrArg (·.codec.crcAcc) hown, unseen v⟩

end Sys2Proof
end

section
/-! Reset and results (10_state.md R29, R44). -/

namespace Sys2Proof

open Machine Safety

/-- Settles O7: the records an instruction returns, and what it does to the block, are functions of the block alone. -/
theorem resultsAreNeverRead : Obligations.ResultsAreNeverRead := fun i s _ =>
  ⟨_, (recordsOf i s.codec).map fun r => ⟨s.port, r⟩, exec_eq i s, rfl, exec_eq i _⟩

/-- Settles O1: the reset values are those that `Codec.reset` writes down, element by element. -/
theorem resetLeavesTheStatedValues : Obligations.ResetLeavesTheStatedValues :=
  ⟨rfl, rfl, rfl, rfl, rfl, rfl, rfl, rfl, rfl, rfl, rfl, rfl⟩

end Sys2Proof
end

section
/-! The writers of each element of the block (10_state.md R22). -/

namespace Sys2Proof.Machine

open Sys2Proof.Safety

/-- Everything an instruction can leave of the block `c`: bytes received, the link, the accumulator or the filter set, the
counters cleared, a frame sent or not sent, or the block as it was; each with the instructions that can do it. -/
inductive CodecChange (i : Instr) (c : Codec) : Codec → Prop where
  | received (hi : receives i = true) (bs : List Byte) : CodecChange i c (receive c bs)
  | link (hi : isLinkEvent i = true) (v : Bool) : CodecChange i c (c.setLink v)
  | accumulator (hi : i = .crcInit ∨ ∃ b, i = .crcByte b) (v : Half) : CodecChange i c (c.setCrcAcc v)
  | filter (v3 v2 v1 v0 : Byte) (hi : i = .regWrite 0x04#8 v3 v2 v1 v0) : CodecChange i c (c.setKeyFilter v1 v0)
  | cleared (hi : i = .cntClear) : CodecChange i c c.clearCounters
  | sent (hi : transmits i = true) (f : List Byte) : CodecChange i c (c.emitTx f)
  | notSent (hi : transmits i = true) : CodecChange i c c.countTxDropped
  | none : CodecChange i c c

/-- What goes through the scanner is received. -/
theorem CodecChange.of_receives {i : Instr} (hi : receives i = true) (c : Codec) : CodecChange i c (codecAfter i c) := by
  obtain ⟨bs, hbs⟩ := codecAfter_receives i c hi
  rw [hbs]
  exact .received hi bs

/-- A transmission sends or counts a drop. -/
theorem CodecChange.of_transmit {i : Instr} (hi : transmits i = true) (f : List Byte) (c : Codec) :
    CodecChange i c (transmit f c).1 := by
  unfold transmit
  split
  · exact .sent hi f
  · exact .notSent hi

/-- Every instruction changes the block in one of these ways. -/
theorem codecAfter_change (i : Instr) (c : Codec) : CodecChange i c (codecAfter i c) := by
  cases i
  case rxByte | frameSetled | frameSetbuzzer | frameKeypadReport => exact .of_receives rfl c
  case linkUp | linkDown => exact .link rfl _
  case crcInit => exact .accumulator (.inl rfl) _
  case crcByte b => exact .accumulator (.inr ⟨b, rfl⟩) _
  case regWrite idx v3 v2 v1 v0 =>
    change CodecChange _ c (writeReg idx (word32 v3 v2 v1 v0) c).1
    by_cases h4 : idx = 0x04#8
    · subst h4
      rw [writeReg_filter]
      exact .filter v3 v2 v1 v0 rfl
    · rw [writeReg_frame idx _ c h4]
      exact .none
  case cntClear => exact .cleared rfl
  case setled | setbuz => exact .of_transmit rfl _ c
  all_goals exact .none

end Sys2Proof.Machine

namespace Sys2Proof

open Machine Safety

/-- Settles O5: each way an instruction can change the block writes only its own elements, and nothing outside the block
and the results changes. -/
theorem fieldsHaveOnlyTheirWriters : Obligations.FieldsHaveOnlyTheirWriters := by
  intro i s
  refine ⟨_, exec_eq i s, ?_⟩
  have hchange := codecAfter_change i s.codec
  generalize codecAfter i s.codec = d at hchange
  cases hchange with
  | received hi bs =>
    obtain ⟨hacc, htx, hdropped⟩ := receive_other bs s.codec
    obtain ⟨hmod, hsel⟩ := receive_filter bs s.codec
    simp [hi, hacc, htx, hdropped, hmod, hsel]
  | accumulator hi v => obtain rfl | ⟨b, rfl⟩ := hi <;> simp
  | link hi v | filter _ _ _ _ hi | cleared hi | sent hi f | notSent hi => simp [hi]
  | none => simp

end Sys2Proof
end

section
/-! What REG.READ and REG.WRITE of one register return (10_state.md R37, R38). -/

namespace Sys2Proof.Machine

open Sys2Proof.Safety

/-- REG.READ of KEY_FILTER returns the two fields of the filter in bits 15:0. -/
theorem exec_regRead_keyFilter (s : State) : exec (.regRead 0x04#8) s =
    .next (after s s.codec .ok .none [0x00#8, 0x00#8, s.codec.keyMod, s.codec.keySel]) := by
  rw [← bytes32_setWidth]
  rfl

/-- REG.WRITE of KEY_FILTER sets the filter to bits 15:0 of the value. -/
theorem exec_regWrite_keyFilter (s : State) (v3 v2 v1 v0 : Byte) : exec (.regWrite 0x04#8 v3 v2 v1 v0) s =
    .next (after s (s.codec.setKeyFilter v1 v0) .ok .none []) := by
  rw [exec_op _ s rfl, State.perform, opOf, writeReg_filter]
  rfl

/-- REG.READ of STATUS returns the buffer's length and the link, while the buffer keeps its bound. -/
theorem exec_regRead_status (s : State) (h : RxBound s) : exec (.regRead 0x05#8) s =
    .next (after s s.codec .ok .none [0x00#8, 0x00#8, 0x00#8,
      BitVec.ofNat 8 (2 * s.codec.rxbuf.length + if s.codec.linkUp then 1 else 0)]) := by
  rw [← bytes32_status s.codec h]
  rfl

/-- REG.WRITE of a read-only register answers E_RO_REG and changes nothing. -/
theorem exec_regWrite_readOnly {idx : Byte} (h4 : idx ≠ 0x04#8) (h6 : idx.toNat ≤ 6) (s : State) (v3 v2 v1 v0 : Byte) :
    exec (.regWrite idx v3 v2 v1 v0) s = .next (after s s.codec .eRoReg .none []) := by
  rw [exec_op _ s rfl, State.perform, opOf, writeReg_readOnly idx _ _ h4 h6]
  rfl

end Sys2Proof.Machine

namespace Sys2Proof

open Machine Safety

/-- Settles O26: the read returns both fields, and the write has put bits 15:0 into them. -/
theorem keyFilterReadsBack : Obligations.KeyFilterReadsBack := by
  refine ⟨exec_regRead_keyFilter State.reset, fun s v3 v2 v1 v0 => ?_⟩
  rw [runOps_cons _ _ _ _ (exec_regWrite_keyFilter s v3 v2 v1 v0), runOps_cons _ _ _ _ (exec_regRead_keyFilter _)]
  exact ⟨_, rfl, rfl, List.append_assoc ..⟩

/-- Settles O27: the value read under the bound, which reset meets with an empty buffer and the link down, and STATUS is one
of the read-only registers. -/
theorem statusShowsCountAndLink : Obligations.StatusShowsCountAndLink :=
  ⟨exec_regRead_status State.reset (Nat.zero_le 8), exec_regRead_status,
    exec_regWrite_readOnly (by decide) (by decide)⟩

end Sys2Proof
end

section
/-! A table word placed to run next (10_state.md R21, 30_encoding.md R72; log entry 4). -/

namespace Sys2Proof

/-- Decoding the encoding of a well-formed operation gives it back, and leaves the bytes after it. -/
theorem decodeOp_encode_append {i : Instr} (hf : i.isFrame = false) (hw : i.wellFormed = true) (rest : List Byte) :
    decodeOp (encode i ++ rest) = .ok (i, rest) := by
  cases i
  case illegal op => exact (unassigned_opcode op (by simpa [Instr.wellFormed] using hw) rest).2
  case frameSetled | frameSetbuzzer | frameKeypadReport => simp [Instr.isFrame] at hf
  all_goals rfl

/-- An operation that the bytes spell, with no byte left over, is still read when other bytes follow. -/
theorem decodeOp_append {bs : List Byte} {i : Instr} (h : decodeOp bs = .ok (i, [])) (rest : List Byte) :
    decodeOp (bs ++ rest) = .ok (i, rest) := by
  obtain ⟨op, xs, rfl, -, hrest, hf, hw, henc⟩ := decodeOp_ok bs [] i h
  rw [List.take_of_length_le (List.drop_eq_nil_iff.1 hrest.symm)] at henc
  rw [← henc]
  exact decodeOp_encode_append hf hw rest

/-- A table word's operation bytes are no more than their opcode asks for. -/
theorem tableOpBytes_length_le {nbits w : Nat} {op : Byte} {xs : List Byte} (h : tableOpBytes nbits w = op :: xs) :
    xs.length + 1 ≤ opLength op := by
  unfold tableOpBytes at h
  generalize lowFirst 10 (w % 2 ^ nbits) = bs at h
  cases bs with
  | nil => simp at h
  | cons b bs =>
    have hlen : (op :: xs).length ≤ opLength b := h ▸ List.length_take_le (opLength b) (b :: bs)
    have hprefix : op :: xs <+: b :: bs := h ▸ List.take_prefix (opLength b) (b :: bs)
    rwa [(List.cons_prefix_cons.1 hprefix).1]

/-- So decoding them leaves no byte over. -/
theorem decodeOp_tableOpBytes {nbits w : Nat} {i : Instr} {rest : List Byte}
    (h : decodeOp (tableOpBytes nbits w) = .ok (i, rest)) : rest = [] := by
  obtain ⟨op, xs, hbs, -, rfl, -⟩ := decodeOp_ok _ rest i h
  have hlen := tableOpBytes_length_le hbs
  exact List.drop_eq_nil_iff.2 (by omega)

/-- A wire frame has nine bytes. -/
theorem decodeFrame_length {bs : List Byte} {i : Instr} (h : decodeFrame bs = .ok i) : bs.length = 9 := by
  obtain ⟨_, _, _, _, _, _, _, _, _, rfl, -⟩ := decodeFrame_ok bs i h
  rfl

namespace Machine

/-- An operation placed at the front of the host command port is what the next step performs. -/
theorem step_placeOp (s : State) {bs : List Byte} {i : Instr} (h : decodeOp bs = .ok (i, [])) :
    step (placeOp s bs) = exec i { s with port := .host } := by
  simp [step, fetch, placeOp, fetchPort, decodeOp_append h]

/-- A frame placed at the front of the wire is what the next step performs. -/
theorem step_placeFrame (s : State) {bs : List Byte} {i : Instr} (h : decodeFrame bs = .ok i) :
    step (placeFrame s bs) = exec i { s with port := .link } := by
  have h9 := decodeFrame_length h
  simp [step, fetch, placeFrame, fetchWire, ← h9, h]

end Machine

open Machine Safety

/-- Settles O20: a 72-bit word is a frame and goes on the wire, any other is an operation and goes on the host command
port. -/
theorem placedWordRunsNext : Obligations.PlacedWordRunsNext := by
  intro s nbits w i h
  unfold decodeTableWord at h
  unfold State.withFetchWord
  split_ifs at h ⊢ with h72
  · split at h
    · cases h
      exact step_placeFrame s ‹_›
    · cases h
  · split at h
    · next j rest hd =>
      cases h
      exact step_placeOp s (decodeOp_tableOpBytes hd ▸ hd)
    · cases h

end Sys2Proof
end

section
/-! The operations with no side effect (20_memory.md R58). -/

namespace Sys2Proof.Machine

open Sys2Proof.Safety

/-- A pure operation only returns its record, which the block alone determines. -/
theorem exec_pure {i : Instr} (hi : isPure i = true) (s : State) :
    exec i s = .next { s with results := s.results ++ [⟨s.port, (opOf i s.codec).2⟩] } := by
  cases i
  case nop | enc | crcRead | dec | keydec | regRead | illegal => rfl
  all_goals simp [isPure] at hi

end Sys2Proof.Machine

namespace Sys2Proof

open Machine Safety

/-- Settles O29: a pure operation finds the same block the second time, so its record is the same; CRC.INIT and CNT.CLEAR
write constants. -/
theorem pureAndIdempotentOperations : Obligations.PureAndIdempotentOperations := by
  refine ⟨fun i s hi => ?_, ?_⟩
  · exact ⟨_, _, exec_pure hi s, rfl, rfl, _, exec_pure hi _, rfl, List.append_assoc ..⟩
  · rintro i s (rfl | rfl) <;> exact ⟨_, _, rfl, rfl, rfl⟩

end Sys2Proof
end

section
/-! What the two commands transmit (20_memory.md R57, 41_tx.md R124). -/

namespace Sys2Proof.Machine

open Sys2Proof.Safety

/-- With the link up the whole frame is sent. -/
theorem transmit_up (f : List Byte) {c : Codec} (h : c.linkUp = true) :
    transmit f c = (c.emitTx f, report .ok []) := by
  simp [transmit, h]

/-- With the link down nothing is sent, and that is counted. -/
theorem transmit_down (f : List Byte) {c : Codec} (h : c.linkUp = false) :
    transmit f c = (c.countTxDropped, report .eNotConnected []) := by
  simp [transmit, h]

theorem isFrame_of_transmits {i : Instr} (hi : transmits i = true) : i.isFrame = false := by
  cases i
  case setled | setbuz => rfl
  all_goals simp [transmits] at hi

/-- A transmitting command transmits the frame of some payload. -/
theorem opOf_of_transmits {i : Instr} (hi : transmits i = true) : ∃ p, opOf i = transmit (frameEncode p) := by
  cases i
  case setled | setbuz => exact ⟨_, rfl⟩
  all_goals simp [transmits] at hi

/-- So to the block it does what transmitting that frame does. -/
theorem codecAfter_of_transmits {i : Instr} (hi : transmits i = true) :
    ∃ p, ∀ c, codecAfter i c = (transmit (frameEncode p) c).1 := by
  obtain ⟨p, hp⟩ := opOf_of_transmits hi
  exact ⟨p, fun c => by simp [codecAfter, isFrame_of_transmits hi, hp]⟩

end Sys2Proof.Machine

namespace Sys2Proof

open Machine Safety

/-- Settles O37: only the two commands write the stream, and they send the valid frame of a payload or, on a down link,
nothing. -/
theorem transmittedFramesAreWhole : Obligations.TransmittedFramesAreWhole := by
  intro i s
  cases hi : transmits i with
  | false =>
    obtain ⟨t, ht, -, -, -, -, -, -, htx, -⟩ := fieldsHaveOnlyTheirWriters i s
    exact ⟨t, [], ht, by simp [htx hi], .inl rfl⟩
  | true =>
    obtain ⟨p, hp⟩ := codecAfter_of_transmits hi
    cases hup : s.codec.linkUp with
    | false =>
      refine ⟨_, [], exec_eq i s, ?_, .inl rfl⟩
      simp [hp, transmit_down _ hup]
    | true =>
      refine ⟨_, frameEncode p, exec_eq i s, ?_, .inr ⟨rfl, frameEncode_ok p, rfl, rfl⟩⟩
      simp [hp, transmit_up _ hup]

end Sys2Proof
end

section
/-! A run of instructions on the block, and such a run on a down link (20_memory.md R60). -/

namespace Sys2Proof.Machine

open Sys2Proof.Safety

/-- What a run of instructions does to the block. -/
def codecAfterAll (is : List Instr) (c : Codec) : Codec := is.foldl (fun c i => codecAfter i c) c

/-- A run of instructions completes, and does to the block what its instructions do one after another. -/
theorem runOps_codec (is : List Instr) (s : State) :
    ∃ t, runOps is s = .next t ∧ t.codec = codecAfterAll is s.codec := by
  induction is generalizing s with
  | nil => exact ⟨s, rfl, rfl⟩
  | cons i is ih =>
    rw [runOps_cons i is s _ (exec_eq i s)]
    exact ih _

/-- The link of `d` is down with an empty buffer, and the three output streams are those of `c`. -/
structure SilentSince (c d : Codec) : Prop where
  linkUp : d.linkUp = false
  rxbuf : d.rxbuf = []
  rxFrames : d.rxFrames = c.rxFrames
  keyEvents : d.keyEvents = c.keyEvents
  txStream : d.txStream = c.txStream

/-- Only LINK.UP can end the silence: received bytes are discarded, a command sends nothing, LINK.DOWN leaves the link down,
and no other instruction writes the link, the buffer or a stream. -/
theorem SilentSince.codecAfter {c d : Codec} (h : SilentSince c d) {i : Instr} (hi : i ≠ .linkUp) :
    SilentSince c (codecAfter i d) := by
  obtain ⟨hlink, hbuf, hfr, hke, htx⟩ := h
  by_cases hrx : receives i = true
  · obtain ⟨bs, hbs⟩ := codecAfter_receives i d hrx
    rw [hbs, receive_down bs d hlink]
    exact ⟨hlink, hbuf, hfr, hke, htx⟩
  by_cases hsend : transmits i = true
  · obtain ⟨p, hp⟩ := codecAfter_of_transmits hsend
    rw [hp, transmit_down _ hlink]
    exact ⟨hlink, hbuf, hfr, hke, htx⟩
  by_cases hdown : i = .linkDown
  · subst hdown
    exact ⟨rfl, rfl, hfr, hke, htx⟩
  have hevent : isLinkEvent i = false := by
    cases i
    case linkUp => exact absurd rfl hi
    case linkDown => exact absurd rfl hdown
    all_goals rfl
  rw [Bool.not_eq_true] at hrx hsend
  obtain ⟨t, ht, hbuf', hlink', -, -, -, -, htx', hrx', -⟩ :=
    fieldsHaveOnlyTheirWriters i { State.reset with codec := d }
  rw [exec_eq] at ht
  cases ht
  exact ⟨(hlink' hevent).trans hlink, (hbuf' hrx hevent).trans hbuf, (hrx' hrx).1.trans hfr,
    (hrx' hrx).2.trans hke, (htx' hsend).trans htx⟩

theorem SilentSince.codecAfterAll {c d : Codec} (h : SilentSince c d) {is : List Instr} (his : ∀ i ∈ is, i ≠ .linkUp) :
    SilentSince c (codecAfterAll is d) := by
  induction is generalizing d with
  | nil => exact h
  | cons i is ih =>
    rw [List.forall_mem_cons] at his
    exact ih (h.codecAfter his.1) his.2

end Sys2Proof.Machine

namespace Sys2Proof

open Machine Safety

/-- Settles O49: LINK.DOWN begins a silence that the instructions after it keep, and a LINK.UP then finds, and leaves, an
empty buffer. -/
theorem nothingIsReceivedWhileDown : Obligations.NothingIsReceivedWhileDown := by
  intro s is his
  obtain ⟨t, ht, hcodec⟩ := runOps_codec (.linkDown :: is) s
  have hdown : SilentSince s.codec (codecAfter .linkDown s.codec) := ⟨rfl, rfl, rfl, rfl, rfl⟩
  obtain ⟨hlink, hbuf, hfr, hke, htx⟩ : SilentSince s.codec t.codec := hcodec ▸ hdown.codecAfterAll his
  exact ⟨⟨t, ht, hlink, hbuf, hfr, hke, htx⟩, _, runOps_append _ [.linkUp] s t ht, rfl, rfl⟩

end Sys2Proof
end

section
/-! Operations on disjoint state (20_memory.md R62). -/

namespace Sys2Proof.Machine

open Sys2Proof.Safety

/-- An operation commutes with an instruction when it does the same thing `g` to the block, and returns the same record,
before that instruction as behind it, and the instruction does not see `g`. -/
theorem commuteAt_of_unseen {i j : Instr} {s : State} {g : Codec → Codec} {r : Result} (hi : i.isFrame = false)
    (hbefore : opOf i s.codec = (g s.codec, r))
    (hbehind : opOf i (codecAfter j s.codec) = (g (codecAfter j s.codec), r))
    (hrx : ∀ b, Unseen g (rxByteOp b)) (hj : Unseen g (opOf j)) : CommuteAt i j s := by
  have hfirst : exec i s = .next (s.finish (g s.codec) r) := by
    rw [exec_op i s hi, State.perform, hbefore]
  have hthen : exec j (s.finish (g s.codec) r) = _ :=
    exec_unseen hrx hj (exec_eq j { s with results := s.results ++ [⟨s.port, r⟩] })
  have hlast (rs : List Returned) : exec i { s with codec := codecAfter j s.codec, results := rs } =
      .next { s with codec := g (codecAfter j s.codec), results := rs ++ [⟨s.port, r⟩] } := by
    rw [exec_op i _ hi, State.perform, hbehind]
    rfl
  exact ⟨_, _, [⟨s.port, r⟩], _, (runOps_cons i _ s _ hfirst).trans (runOps_cons j _ _ _ hthen),
    (runOps_cons j _ s _ (exec_eq j s)).trans (runOps_cons i _ _ _ (hlast _)), rfl, rfl, rfl,
    ⟨_, hfirst, rfl⟩, _, exec_eq j s, rfl⟩

/-- Instructions that commute leave the same block in either order. -/
theorem codecAfter_comm_of_commuteAt {i j : Instr} {s : State} (h : CommuteAt i j s) :
    codecAfter j (codecAfter i s.codec) = codecAfter i (codecAfter j s.codec) := by
  obtain ⟨t, u, -, -, ht, hu, hcodec, -⟩ := h
  obtain ⟨t', ht', htc⟩ := runOps_codec [i, j] s
  obtain ⟨u', hu', huc⟩ := runOps_codec [j, i] s
  cases ht.symm.trans ht'
  cases hu.symm.trans hu'
  exact htc.symm.trans (hcodec.trans huc)

/-! ### The CRC generator -/

theorem isFrame_of_inCrcGroup {i : Instr} (hi : inCrcGroup i = true) : i.isFrame = false := by
  cases i
  case crcInit | crcByte | crcRead => rfl
  all_goals simp [inCrcGroup] at hi

/-- An operation of the CRC generator reads and writes the accumulator alone. -/
theorem opOf_of_inCrcGroup {i : Instr} (hi : inCrcGroup i = true) :
    ∃ (v : Half → Half) (r : Half → Result), ∀ c, opOf i c = (c.setCrcAcc (v c.crcAcc), r c.crcAcc) := by
  cases i
  case crcInit => exact ⟨fun _ => crcInitValue, fun _ => report .ok [], fun _ => rfl⟩
  case crcByte b => exact ⟨fun a => crc16Update a b, fun _ => report .ok [], fun _ => rfl⟩
  case crcRead => exact ⟨id, fun a => report .ok (bytes16 a), fun _ => rfl⟩
  all_goals simp [inCrcGroup] at hi

/-- The CRC generator commutes with every instruction that leaves the accumulator unread and unwritten. -/
theorem commuteAt_crcGroup {i j : Instr} (hi : inCrcGroup i = true) (hj : inCrcGroup j = false)
    (h6 : j ≠ .regRead 0x06#8) (s : State) : CommuteAt i j s := by
  obtain ⟨v, r, hop⟩ := opOf_of_inCrcGroup hi
  have hacc : (codecAfter j s.codec).crcAcc = s.codec.crcAcc := by
    obtain ⟨t, ht, hacc, -⟩ := framePathsIgnoreTheAccumulator j s 0#16 hj h6
    rw [exec_eq] at ht
    cases ht
    exact hacc
  exact commuteAt_of_unseen (g := (·.setCrcAcc (v s.codec.crcAcc))) (isFrame_of_inCrcGroup hi) (hop _)
    (by rw [hop, hacc]) (rxByteOp_setCrcAcc · _) (opOf_setCrcAcc j _ hj h6)

/-! ### The commands -/

/-- A received byte does not see what is done to the transmit stream and to the transmit-drop counter. -/
theorem rxByteOp_mapTx (tx : List Byte → List Byte) (n : Word → Word) (b : Byte) :
    Unseen (fun c => { c with txStream := tx c.txStream, cntTxDropped := n c.cntTxDropped }) (rxByteOp b) := by
  intro c
  obtain ⟨hacc, htx, hdropped⟩ : (rxByteOp b c).1.crcAcc = c.crcAcc ∧ (rxByteOp b c).1.txStream = c.txStream ∧
    (rxByteOp b c).1.cntTxDropped = c.cntTxDropped := receive_other [b] c
  have h := rxByteOp_withOther b c c.crcAcc (tx c.txStream) (n c.cntTxDropped)
  conv_rhs at h => rw [← hacc, ← htx, ← hdropped]
  exact h

/-- So it does not see a frame sent. -/
theorem rxByteOp_emitTx (f : List Byte) : ∀ b, Unseen (·.emitTx f) (rxByteOp b) :=
  rxByteOp_mapTx (· ++ f) id

/-- Nor a frame counted as not sent. -/
theorem rxByteOp_countTxDropped : ∀ b, Unseen Codec.countTxDropped (rxByteOp b) :=
  rxByteOp_mapTx id (· + 1#32)

/-- A command commutes with RX.BYTE, which reads nothing that a transmission writes and keeps the link. -/
theorem commuteAt_transmit_rxByte {i : Instr} (hi : transmits i = true) (b : Byte) (s : State) :
    CommuteAt i (.rxByte b) s := by
  obtain ⟨p, hp⟩ := opOf_of_transmits hi
  have hlink : (codecAfter (.rxByte b) s.codec).linkUp = s.codec.linkUp := rxByteOp_linkUp b s.codec
  cases hup : s.codec.linkUp with
  | true =>
    exact commuteAt_of_unseen (isFrame_of_transmits hi) (by rw [hp, transmit_up _ hup])
      (by rw [hp, transmit_up _ (hlink.trans hup)]) (rxByteOp_emitTx _) (rxByteOp_emitTx _ b)
  | false =>
    exact commuteAt_of_unseen (isFrame_of_transmits hi) (by rw [hp, transmit_down _ hup])
      (by rw [hp, transmit_down _ (hlink.trans hup)]) rxByteOp_countTxDropped (rxByteOp_countTxDropped b)

/-- On a down link a command before LINK.UP is counted as not sent, and one behind it is sent. -/
theorem not_commuteAt_transmit_linkUp {i : Instr} (hi : transmits i = true) {s : State} (hdown : s.codec.linkUp = false) :
    ¬ CommuteAt i .linkUp s := by
  intro h
  obtain ⟨p, hp⟩ := codecAfter_of_transmits hi
  have hcodec := codecAfter_comm_of_commuteAt h
  rw [hp, hp, transmit_down _ hdown, transmit_up _ rfl] at hcodec
  have hcount : s.codec.cntTxDropped + 1#32 = s.codec.cntTxDropped := congrArg Codec.cntTxDropped hcodec
  simp at hcount

/-- On a live link a command before LINK.DOWN is sent, and one behind it is counted as not sent. -/
theorem not_commuteAt_transmit_linkDown {i : Instr} (hi : transmits i = true) {s : State} (hup : s.codec.linkUp = true) :
    ¬ CommuteAt i .linkDown s := by
  intro h
  obtain ⟨p, hp⟩ := codecAfter_of_transmits hi
  have hcodec := codecAfter_comm_of_commuteAt h
  rw [hp, hp, transmit_up _ hup, transmit_down _ rfl] at hcodec
  have hcount : s.codec.cntTxDropped = s.codec.cntTxDropped + 1#32 := congrArg Codec.cntTxDropped hcodec
  simp at hcount

end Sys2Proof.Machine

namespace Sys2Proof

open Machine Safety

/-- Settles O57: the CRC generator by its accumulator, ENC because it does nothing to the block, the commands because a
received byte keeps the link; they fail to commute with LINK.UP at reset, and with LINK.DOWN behind a LINK.UP. -/
theorem disjointOperationsCommute : Obligations.DisjointOperationsCommute := by
  refine ⟨fun i j s hi hj h6 => commuteAt_crcGroup hi hj h6 s, fun m e d1 d2 d3 j s => ?_,
    fun i b s hi => commuteAt_transmit_rxByte hi b s, fun i hi => ⟨?_, ?_⟩⟩
  · exact commuteAt_of_unseen (g := id) rfl rfl rfl (fun _ _ => rfl) (fun _ => rfl)
  · exact ⟨State.reset, not_commuteAt_transmit_linkUp hi rfl⟩
  · exact ⟨{ State.reset with codec := Codec.reset.setLink true }, not_commuteAt_transmit_linkDown hi rfl⟩

end Sys2Proof
end

section
/-! The round trip of the operation codec, and the lengths of operations (30_encoding.md R76 to R79). -/

namespace Sys2Proof

/-- The operation that the decoder reads is well formed, and its encoding is what was taken off the front. -/
theorem decodeOp_ok_encode {bs rest : List Byte} {i : Instr} (h : decodeOp bs = .ok (i, rest)) :
    i.isFrame = false ∧ i.wellFormed = true ∧ bs = encode i ++ rest := by
  obtain ⟨op, xs, rfl, -, rfl, hf, hw, henc⟩ := decodeOp_ok bs rest i h
  exact ⟨hf, hw, by rw [henc, List.cons_append, List.take_append_drop]⟩

/-- With the bytes that its opcode asks for an operation decodes, and those bytes are taken. -/
theorem decodeOp_of_length_le {op : Byte} {xs : List Byte} (h : opLength op ≤ xs.length + 1) :
    ∃ i, decodeOp (op :: xs) = .ok (i, xs.drop (opLength op - 1)) := by
  obtain ⟨-, i, hd, -⟩ | ⟨hlt, -⟩ := decodeOp_cons op xs
  · exact ⟨i, hd⟩
  · omega

/-- With fewer bytes it is refused as truncated. -/
theorem decodeOp_of_lt_length {op : Byte} {xs : List Byte} (h : xs.length + 1 < opLength op) :
    decodeOp (op :: xs) = .error (.truncated op) := by
  obtain ⟨hle, -⟩ | ⟨-, hd⟩ := decodeOp_cons op xs
  · omega
  · exact hd

/-- Settles O10: the decoder reads the encoding of each operation by its opcode, whatever bytes follow. -/
theorem operationDecodeOfEncode : Obligations.OperationDecodeOfEncode :=
  fun _ rest hf hw => decodeOp_encode_append hf hw rest

/-- Settles O12: the bytes taken are as many as the opcode asks for, and they are the encoding of what was read. -/
theorem decodedOperationIsItsEncoding : Obligations.DecodedOperationIsItsEncoding :=
  fun _ _ _ h => decodeOp_ok_encode h

/-- Settles O13: the decoder compares the bytes there are with the opcode's length, and that length is 1 for a byte that is
none of the fifteen opcodes. -/
theorem lengthFromOpcodeAlone : Obligations.LengthFromOpcodeAlone := by
  refine ⟨fun op => ?_, fun op xs =>
    ⟨decodeOp_of_length_le, decodeOp_of_lt_length, fun hop => (unassigned_opcode op hop xs).2⟩⟩
  by_cases hop : op ∈ assignedOpcodes
  · unfold assignedOpcodes at hop
    fin_cases hop <;> rfl
  · rw [(unassigned_opcode op hop []).1]
    simp only [assignedOpcodes, List.mem_cons, List.not_mem_nil, or_false, not_or] at hop
    simp [hop]

end Sys2Proof
end

section
/-! Ports that deliver whole operations (30_encoding.md R79). -/

namespace Sys2Proof.Safety

open Machine

/-- Nothing waits, or the decoder reads an operation and leaves whole operations. -/
theorem WholeOps.nil_or_decodes {bs : List Byte} (h : WholeOps bs) :
    bs = [] ∨ ∃ i rest, decodeOp bs = .ok (i, rest) ∧ WholeOps rest := by
  obtain ⟨is, his, rfl⟩ := h
  cases is with
  | nil => exact .inl rfl
  | cons i is =>
    obtain ⟨⟨hf, hw⟩, his⟩ := List.forall_mem_cons.1 his
    exact .inr ⟨i, is.flatMap encode, decodeOp_encode_append hf hw _, is, his, rfl⟩

/-- What the decoder leaves of whole operations is whole operations. -/
theorem WholeOps.rest {bs rest : List Byte} {i : Instr} (h : WholeOps bs) (hd : decodeOp bs = .ok (i, rest)) :
    WholeOps rest := by
  obtain rfl | ⟨j, rest', hj, hrest⟩ := h.nil_or_decodes
  · cases hd
  · cases hd.symm.trans hj
    exact hrest

/-- Whole operations do not begin with a partial one. -/
theorem WholeOps.length_le {op : Byte} {xs : List Byte} (h : WholeOps (op :: xs)) : opLength op ≤ xs.length + 1 := by
  obtain hnil | ⟨i, rest, hd, -⟩ := h.nil_or_decodes
  · cases hnil
  · by_contra hlt
    cases (decodeOp_of_lt_length (Nat.lt_of_not_le hlt)).symm.trans hd

/-- A step that performs an instruction goes on, and leaves what waits at the ports as the instruction found it. -/
theorem step_portsWhole_of_exec {s u : State} {i : Instr} (he : step s = exec i u) (hu : PortsWhole u) :
    ∃ t, step s = .next t ∧ PortsWhole t :=
  ⟨_, he.trans (exec_eq i u), hu⟩

end Sys2Proof.Safety

namespace Sys2Proof

open Machine Safety

/-- Settles O19: a port's turn finds nothing or an operation, and leaves whole operations behind it; the other turns leave
the ports alone; and every instruction completes. -/
theorem wholePortsNeverStop : Obligations.WholePortsNeverStop := by
  rintro s ⟨hhost, hlink⟩
  obtain ⟨-, he⟩ | ⟨ts, -, he⟩ |
    ⟨ts, -, ⟨hnil, he⟩ | ⟨i, rest, hd, he⟩ | ⟨op, xs, hs, hlt, -⟩⟩ |
    ⟨ts, -, ⟨hnil, he⟩ | ⟨i, rest, hd, he⟩ | ⟨op, xs, hs, hlt, -⟩⟩ |
    ⟨ts, -, ⟨-, he⟩ | ⟨i, -, he⟩ | ⟨b, rest, e, -, -, he⟩⟩ := step_cases s
  · exact ⟨_, he, hhost, hlink⟩
  · exact ⟨_, he, hhost, hlink⟩
  · exact ⟨_, he, hnil ▸ hhost, hlink⟩
  · exact step_portsWhole_of_exec he ⟨hhost.rest hd, hlink⟩
  · exact absurd (hs ▸ hhost).length_le (Nat.not_le_of_lt hlt)
  · exact ⟨_, he, hhost, hnil ▸ hlink⟩
  · exact step_portsWhole_of_exec he ⟨hhost, hlink.rest hd⟩
  · exact absurd (hs ▸ hlink).length_le (Nat.not_le_of_lt hlt)
  · exact ⟨_, he, hhost, hlink⟩
  · exact step_portsWhole_of_exec he ⟨hhost, hlink⟩
  · exact step_portsWhole_of_exec he ⟨hhost, hlink⟩

end Sys2Proof
end

section
/-! The wire-frame rows and their nine bytes (30_encoding.md R82 to R84). -/

namespace Sys2Proof

/-- Decoding the nine bytes of a frame row gives it back. -/
theorem decodeFrame_encode {i : Instr} (hi : i.isFrame = true) : decodeFrame (encode i) = .ok i := by
  cases i
  case frameSetled => rfl
  case frameSetbuzzer o h l =>
    obtain ⟨hfixed, hfield, -⟩ := stateByte_fields o
    simp [encode, decodeFrame, hfixed, hfield]
  case frameKeypadReport d s x h l =>
    obtain ⟨hfixed, hfield, -⟩ := stateByte_fields d
    simp [encode, decodeFrame, hfixed, hfield]
  all_goals simp [Instr.isFrame] at hi

/-- A byte with the seven fixed bits of a state byte is those bits and its bit 0. -/
theorem stateByte_eq_append {b : Byte} (h : b.extractLsb' 1 7 = 0b0011000#7) : b = 0b0011000#7 ++ b.extractLsb' 0 1 :=
  (stateByte_of_bits b h).trans (stateByte_fields _).2.2.symm

/-- A frame row is read from its nine bytes, and from no others. -/
theorem decodeFrame_eq_ok_iff {i : Instr} (hi : i.isFrame = true) (bs : List Byte) :
    decodeFrame bs = .ok i ↔ bs = encode i := by
  constructor
  · intro h
    obtain ⟨b0, b1, b2, b3, b4, b5, h, l, b8, rfl, rfl, rfl, ⟨rfl, rfl, rfl, rfl⟩ | ⟨rfl, rfl, h3, rfl, rfl, rfl⟩ |
      ⟨rfl, rfl, h3, rfl⟩⟩ := decodeFrame_ok bs i h
    · rfl
    · rw [encode, ← stateByte_eq_append h3]
    · rw [encode, ← stateByte_eq_append h3]
  · rintro rfl
    exact decodeFrame_encode hi

/-- Settles O11: the fixed bytes of a row choose its pattern, and its fields are the other bytes. -/
theorem frameDecodeOfEncode : Obligations.FrameDecodeOfEncode := fun _ => decodeFrame_encode

/-- Settles O14: a row's encoding is its pattern, with 0x31 or 0x30 for the row's bit. -/
theorem frameRowsMatchTheirPatterns : Obligations.FrameRowsMatchTheirPatterns := by
  intro bs
  refine ⟨fun a c h l => decodeFrame_eq_ok_iff rfl bs, fun o h l => ?_, fun d s x h l => ?_⟩
  · rw [← (stateByte_fields o).2.2]
    exact decodeFrame_eq_ok_iff rfl bs
  · rw [← (stateByte_fields d).2.2]
    exact decodeFrame_eq_ok_iff rfl bs

/-- Settles O15: each word is read by evaluating the decoder. -/
theorem writtenOutWordsDecode : Obligations.WrittenOutWordsDecode :=
  ⟨rfl, rfl, rfl, rfl, rfl, rfl, rfl, rfl, rfl, rfl⟩

end Sys2Proof
end

section
/-! The operation that a turn performs (20_memory.md R59, 30_encoding.md R72, R73). -/

namespace Sys2Proof.Machine

/-- A port delivers the operation that the decoder reads. -/
theorem fetchPort_of_decodeOp {bytes rest : List Byte} {i : Instr} (h : decodeOp bytes = .ok (i, rest))
    (after : List Byte → State) : fetchPort bytes after = .run i (after rest) := by
  simp [fetchPort, h]

/-- The wire delivers the frame row that its next nine bytes are. -/
theorem fetchWire_of_decodeFrame {bytes : List Byte} {i : Instr} (h : decodeFrame (bytes.take 9) = .ok i)
    (after : List Byte → State) : fetchWire bytes after = .run i (after (bytes.drop 9)) := by
  simp [fetchWire, h]

/-- The wire delivers RX.BYTE of its next byte when the next nine are no frame row. -/
theorem fetchWire_of_noFrame {b : Byte} {rest : List Byte} {e : DecodeError}
    (h : decodeFrame ((b :: rest).take 9) = .error e) (after : List Byte → State) :
    fetchWire (b :: rest) after = .run (.rxByte b) (after rest) := by
  unfold fetchWire
  rw [h]

end Sys2Proof.Machine

namespace Sys2Proof

open Machine

/-- Settles O16: the turn chooses the input, and the input delivers what the decoder reads there. -/
theorem stepRunsTheDecodedOperation : Obligations.StepRunsTheDecodedOperation := by
  refine ⟨fun s ts i rest ht hd => ?_, fun s ts i rest ht hd => ?_, fun s ts i ht hd => ?_,
    fun s ts b rest e ht hb hd => ?_⟩
  · simp only [step, fetch, ht, fetchPort_of_decodeOp hd]
  · simp only [step, fetch, ht, fetchPort_of_decodeOp hd]
  · simp only [step, fetch, ht, fetchWire_of_decodeFrame hd]
  · rw [hb] at hd
    simp only [step, fetch, ht, hb, fetchWire_of_noFrame hd]

end Sys2Proof
end

section
/-! The records that an instruction returns (30_encoding.md R80, R81). -/

namespace Sys2Proof.Machine

open Sys2Proof.Safety

/-- A frame row has nine bytes. -/
theorem encode_length_of_isFrame {i : Instr} (hi : i.isFrame = true) : (encode i).length = 9 :=
  decodeFrame_length (decodeFrame_encode hi)

/-- An operation returns one record, a frame row one for each of its bytes. -/
theorem recordsOf_length (i : Instr) (c : Codec) : (recordsOf i c).length = recordCount i := by
  unfold recordsOf recordCount
  split
  · next hi => rw [rxResults_length, encode_length_of_isFrame hi]
  · rfl

theorem transmit_event (f : List Byte) (c : Codec) : (transmit f c).2.event = .none := by
  unfold transmit
  split <;> rfl

theorem decResult_event (f : List Byte) : (decResult f).event = .none := by
  unfold decResult
  split <;> rfl

theorem keydecResult_event (r : Except Status KeyEvent) : (keydecResult r).event = .none := by
  cases r <;> rfl

theorem readResult_event (v : Option Word) : (readResult v).event = .none := by
  cases v <;> rfl

theorem writeReg_event (idx : Byte) (v : Word) (c : Codec) : (writeReg idx v c).2.event = .none := by
  unfold writeReg
  split <;> rfl

/-- Outside the receive scanner an instruction returns no event. -/
theorem recordsOf_event {i : Instr} (hi : receives i = false) (c : Codec) : ∀ r ∈ recordsOf i c, r.event = .none := by
  have single {r : Result} (h : r.event = .none) : ∀ r' ∈ [r], r'.event = .none := List.forall_mem_singleton.2 h
  cases i
  case rxByte | frameSetled | frameSetbuzzer | frameKeypadReport => simp [receives] at hi
  case setled | setbuz => exact single (transmit_event _ c)
  case dec => exact single (decResult_event _)
  case keydec => exact single (keydecResult_event _)
  case regRead => exact single (readResult_event _)
  case regWrite => exact single (writeReg_event _ _ c)
  all_goals exact single rfl

end Sys2Proof.Machine

namespace Sys2Proof

open Machine Safety

/-- Settles O21: the records are those of the block, each sent to the port that issued the instruction. -/
theorem everyOperationReturnsItsRecord : Obligations.EveryOperationReturnsItsRecord := by
  intro i s
  refine ⟨_, _, exec_eq i s, rfl, ?_, ?_⟩
  · rw [List.length_map, recordsOf_length]
  · rw [List.forall_mem_map]
    exact fun r hr => ⟨rfl, fun hi => recordsOf_event hi s.codec r hr⟩

end Sys2Proof
end

section
/-! A frame row on the wire, sent and received (30_encoding.md R82 to R85, R88). -/

namespace Sys2Proof.Machine

open Sys2Proof.Safety

/-- Bytes 6 and 7 of a frame row carry its CRC exactly when the row is well formed. -/
theorem crcRight_encode {i : Instr} (hi : i.isFrame = true) : crcRight (encode i) = i.wellFormed := by
  cases i
  case frameSetled | frameSetbuzzer | frameKeypadReport => rfl
  all_goals simp [Instr.isFrame] at hi

/-- A frame row that the encoder builds is well formed. -/
theorem wellFormed_of_frameEncode {i : Instr} (hi : i.isFrame = true) {p : Payload} (h : frameEncode p = encode i) :
    i.wellFormed = true := by
  rw [← crcRight_encode hi, ← h]
  exact (crcRight_nine _ _ _ _ _ _ _ _ _).2 ⟨rfl, rfl⟩

/-- The SetLed command's frame is a SetLed row. -/
theorem frameEncode_ledPayload (led color : Byte) :
    ∃ h l, frameEncode (ledPayload led color) = encode (.frameSetled led color h l) :=
  ⟨_, _, rfl⟩

/-- The SetBuzzer command's frame is a SetBuzzer row, whose bit says whether the operand is on. -/
theorem frameEncode_buzPayload (on : Byte) :
    ∃ h l, frameEncode (buzPayload (isOn on)) = encode (.frameSetbuzzer (if on = 0x00#8 then 0#1 else 1#1) h l) := by
  by_cases h0 : on = 0x00#8
  · subst h0
    exact ⟨_, _, rfl⟩
  · have hon : isOn on = true := bne_iff_ne.2 h0
    rw [hon, if_neg h0]
    exact ⟨_, _, rfl⟩

/-- On a live link a transmission puts its frame on the stream. -/
theorem perform_transmit_txStream {s : State} (hup : s.codec.linkUp = true) (f : List Byte) :
    (s.perform (transmit f)).codec.txStream = s.codec.txStream ++ f := by
  simp [transmit_up f hup]

/-- Nine bytes with STX first and ETX last, into an empty buffer, are one candidate. -/
theorem receive_candidate_of_empty {c : Codec} (hup : c.linkUp = true) (hbuf : c.rxbuf = []) {mid : List Byte}
    (h7 : mid.length = 7) : receive c (stx :: mid ++ [etx]) = (completeFrame c (stx :: mid ++ [etx])).1 := by
  have hset : c.setRxbuf [] = c := by rw [← hbuf]; rfl
  have h := receive_candidate c hup mid h7
  rwa [hset] at h

end Sys2Proof.Machine

namespace Sys2Proof

open Machine Safety

/-- Settles O36: the command's payload fills the row's pattern, and the encoder puts the CRC in. -/
theorem commandsSendTheirFrameRow : Obligations.CommandsSendTheirFrameRow := by
  refine fun s hup => ⟨fun led color => ?_, fun on => ?_⟩
  · obtain ⟨h, l, henc⟩ := frameEncode_ledPayload led color
    exact ⟨_, h, l, exec_op _ s rfl, wellFormed_of_frameEncode rfl henc, henc ▸ perform_transmit_txStream hup _⟩
  · obtain ⟨h, l, henc⟩ := frameEncode_buzPayload on
    exact ⟨_, h, l, exec_op _ s rfl, wellFormed_of_frameEncode rfl henc, henc ▸ perform_transmit_txStream hup _⟩

/-- Settles O55: a frame row delivers its nine bytes, and so does a run of RX.BYTE operations. -/
theorem frameRowsArriveByteByByte : Obligations.FrameRowsArriveByteByByte := fun i s hi =>
  ⟨(exec_frame i s hi).trans (runOps_rxBytes _ s).symm, exec_completes i s⟩

/-- Settles O56: the nine bytes are one candidate, which its CRC decides. -/
theorem arrivingFrameIsYieldedOrDropped : Obligations.ArrivingFrameIsYieldedOrDropped := by
  intro s i m e d1 d2 d3 h l hi hup hbuf henc
  have hcodec : (deliver s (encode i)).codec = (completeFrame s.codec (encode i)).1 := by
    rw [deliver_codec, henc]
    exact receive_candidate_of_empty hup hbuf (mid := [m, e, d1, d2, d3, h, l]) rfl
  refine ⟨_, exec_frame i s hi, fun hw => ?_, fun hw => ?_⟩
  · rw [hcodec, completeFrame_right _ _ ((crcRight_encode hi).trans hw), henc]
    rfl
  · rw [hcodec, completeFrame_wrong _ _ ((crcRight_encode hi).trans hw)]

end Sys2Proof
end

section
/-! The pseudo-operations (30_encoding.md R88). -/

namespace Sys2Proof.Machine

/-- A run of CRC.BYTE operations folds the update over its bytes. -/
theorem codecAfterAll_crcBytes (bs : List Byte) (c : Codec) :
    codecAfterAll (bs.map .crcByte) c = c.setCrcAcc (bs.foldl crc16Update c.crcAcc) := by
  induction bs generalizing c with
  | nil => rfl
  | cons b bs ih => exact ih (c.setCrcAcc (crc16Update c.crcAcc b))

/-- REG.WRITE of a two-byte value has zeros in its upper two bytes. -/
theorem regWriteOf_setWidth (idx a b : Byte) :
    regWriteOf idx ((a ++ b).setWidth 32) = .regWrite idx 0x00#8 0x00#8 a b := by
  have hbytes := bytes32_setWidth a b
  simp only [bytes32, List.cons.injEq, and_true] at hbytes
  obtain ⟨h3, h2, h1, h0⟩ := hbytes
  rw [regWriteOf, h3, h2, h1, h0]

end Sys2Proof.Machine

namespace Sys2Proof

open Machine Safety

/-- Settles O58: CRC.INIT gives the fold its start, REG.WRITE sets the filter, and LINK.UP follows LINK.DOWN. -/
theorem pseudoOperationsExpand : Obligations.PseudoOperationsExpand := by
  refine ⟨fun _ _ => rfl, fun _ _ _ _ _ => rfl, fun _ _ => rfl,
    fun m e => congrArg (some [·]) (regWriteOf_setWidth 0x04#8 m e), rfl, fun b bs s => ?_,
    fun m e s => ⟨_, runOps_cons _ [] s _ (exec_regWrite_keyFilter s _ _ m e), rfl⟩, fun s => ⟨_, rfl, rfl⟩⟩
  obtain ⟨t, ht, hcodec⟩ := runOps_codec (.crcInit :: (b :: bs).map .crcByte) s
  exact ⟨t, ht, hcodec.trans (codecAfterAll_crcBytes (b :: bs) _)⟩

end Sys2Proof
end

section
/-! The CRC generator (40_crc.md R102 to R105). -/

namespace Sys2Proof.Machine

open Sys2Proof.Safety

/-- A run of instructions returns the records of each of them. -/
theorem runOps_results_length {is : List Instr} {s t : State} (h : runOps is s = .next t) :
    t.results.length = s.results.length + (is.map recordCount).sum := by
  induction is generalizing s with
  | nil =>
    cases h
    rfl
  | cons i is ih =>
    rw [runOps_cons i is s _ (exec_eq i s)] at h
    rw [ih h, List.length_append, List.length_map, recordsOf_length, List.map_cons, List.sum_cons, Nat.add_assoc]

/-- A run of CRC.BYTE operations returns one record for each byte. -/
theorem sum_recordCount_crcBytes (bs : List Byte) : ((bs.map Instr.crcByte).map recordCount).sum = bs.length := by
  have hone : recordCount ∘ Instr.crcByte = fun _ => 1 := rfl
  rw [List.map_map, hone, List.map_const', List.sum_replicate_nat, Nat.mul_one]

end Sys2Proof.Machine

namespace Sys2Proof

open Machine Safety

/-- Settles O31: CRC.INIT gives the accumulator the start of the fold, and each CRC.BYTE is one step of it. -/
theorem crcBlockComputesCrc16 : Obligations.CrcBlockComputesCrc16 := by
  intro s bs
  obtain ⟨t, ht, hcodec⟩ := runOps_codec (.crcInit :: bs.map .crcByte) s
  refine ⟨t, ht, hcodec.trans (codecAfterAll_crcBytes bs _), ?_⟩
  have hinit : recordCount .crcInit = 1 := rfl
  rw [runOps_results_length ht, List.map_cons, List.sum_cons, hinit, sum_recordCount_crcBytes]
  omega

/-- Settles O32: of the accumulator with the byte in it, eight turns carry the high byte down unchanged, and what they make
of the low byte is the table's entry; the two parts go through the turns separately because a turn is linear. -/
theorem crcTableDrivenForm : Obligations.CrcTableDrivenForm := by
  intro c b
  have hlow : lo (c ^^^ b.setWidth 16) = (c ^^^ b.setWidth 16).setWidth 8 :=
    (BitVec.setWidth_eq_extractLsb' (by decide)).symm
  calc crc16Update c b
    _ = crcShifts 8 ((hi c).setWidth 16 <<< 8 ^^^ (lo (c ^^^ b.setWidth 16)).setWidth 16) := by
      rw [← hi_xor_byte c b, ← half_split, crc16Update]
    _ = c >>> 8 ^^^ crcTable ((c ^^^ b.setWidth 16).setWidth 8) := by
      rw [crcShifts_xor, crcShifts_high, half_shift, hlow, crcTable]

/-- Settles O30: each operation's effect and record are those that the model performs, and the three updates are
evaluated. -/
theorem crcGeneratorOperations : Obligations.CrcGeneratorOperations :=
  ⟨fun _ => rfl, fun _ _ => rfl, fun _ => rfl, fun s => exec_op .crcInit s rfl, fun s b => exec_op (.crcByte b) s rfl,
    fun s => exec_op .crcRead s rfl, rfl, rfl, rfl⟩

end Sys2Proof
end

section
/-! One flipped bit and the CRC (40_crc.md R105 item d). -/

namespace Sys2Proof.Safety

open Sys2Proof.Machine

@[simp] theorem flipBit_length (f : List Byte) (j : Nat) : (flipBit f j).length = f.length :=
  List.length_set

theorem flipBit_cons_low (b : Byte) (f : List Byte) {k : Nat} (hk : k < 8) :
    flipBit (b :: f) k = (b ^^^ 1#8 <<< k) :: f := by
  simp [flipBit, Nat.div_eq_of_lt hk, Nat.mod_eq_of_lt hk]

theorem flipBit_cons_add (b : Byte) (f : List Byte) (j : Nat) : flipBit (b :: f) (j + 8) = b :: flipBit f j := by
  simp [flipBit]

/-- Flipping a bit changes one byte and leaves those before and after it. -/
theorem flipBit_eq_split {f : List Byte} {j : Nat} (hj : j < 8 * f.length) :
    ∃ pre b post, f = pre ++ b :: post ∧ flipBit f j = pre ++ (b ^^^ 1#8 <<< (j % 8)) :: post := by
  have hlt : j / 8 < f.length := Nat.div_lt_of_lt_mul hj
  refine ⟨f.take (j / 8), f[j / 8], f.drop (j / 8 + 1), ?_, ?_⟩
  · rw [List.getElem_cons_drop, List.take_append_drop]
  · rw [flipBit, byteAt, List.getD_eq_getElem f _ hlt, List.set_eq_take_append_cons_drop, if_pos hlt]

/-- A bit of the first part is flipped there. -/
theorem flipBit_append_left {f : List Byte} {j : Nat} (hj : j < 8 * f.length) (g : List Byte) :
    flipBit (f ++ g) j = flipBit f j ++ g := by
  have hlt : j / 8 < f.length := Nat.div_lt_of_lt_mul hj
  rw [flipBit, byteAt, List.getD_append _ _ _ _ hlt, List.set_append_left _ _ hlt, flipBit, byteAt]

/-- A bit past the first part is flipped in the second. -/
theorem flipBit_append_right (f g : List Byte) (j : Nat) :
    flipBit (f ++ g) (j + 8 * f.length) = f ++ flipBit g j := by
  induction f with
  | nil => rfl
  | cons b f ih =>
    rw [List.length_cons, Nat.mul_succ, ← Nat.add_assoc, List.cons_append, flipBit_cons_add, ih, List.cons_append]

end Sys2Proof.Safety

namespace Sys2Proof.Machine

open Sys2Proof.Safety

/-- What is XORed into the accumulator comes out of the fold as its own remainder, because the update is linear. -/
theorem crcFold_xor_start (xs : List Byte) (a e : Half) : xs.foldl crc16Update (a ^^^ e) =
    xs.foldl crc16Update a ^^^ (List.replicate xs.length 0#8).foldl crc16Update e := by
  induction xs generalizing a e with
  | nil => rfl
  | cons x xs ih =>
    have hupdate : crc16Update (a ^^^ e) x = crc16Update a x ^^^ crc16Update e 0#8 := by
      rw [← crc16Update_xor, BitVec.xor_zero]
    rw [List.foldl_cons, List.foldl_cons, List.length_cons, List.replicate_succ, List.foldl_cons, hupdate, ih]

/-- Flipping a bit of one byte XORs the remainder of that error into the CRC. -/
theorem crc16_flip (pre : List Byte) (b : Byte) (post : List Byte) (k : Nat) :
    crc16 (pre ++ (b ^^^ 1#8 <<< k) :: post) = crc16 (pre ++ b :: post) ^^^ bitRemainder k post.length := by
  have hupdate (a : Half) : crc16Update a (b ^^^ 1#8 <<< k) = crc16Update a b ^^^ crc16Update 0#16 (1#8 <<< k) := by
    rw [← crc16Update_xor, BitVec.xor_zero]
  simp only [crc16, List.foldl_append, List.foldl_cons]
  rw [hupdate, crcFold_xor_start, bitRemainder]

/-- Flipping a bit of at most five bytes changes their CRC. -/
theorem crc16_flipBit_ne {xs : List Byte} (h5 : xs.length ≤ 5) {j : Nat} (hj : j < 8 * xs.length) :
    crc16 (flipBit xs j) ≠ crc16 xs := by
  obtain ⟨pre, b, post, rfl, hflip⟩ := flipBit_eq_split hj
  have hpost : post.length < 5 := by
    rw [List.length_append, List.length_cons] at h5
    omega
  rw [hflip, crc16_flip]
  exact xor_ne_self _ _ (bitRemainder_ne_zero _ (Nat.mod_lt j (by decide)) _ hpost)

/-- Between STX and ETX the check compares the two CRC bytes with the CRC of the five bytes before them. -/
theorem frameCheck_candidate {xs : List Byte} (h5 : xs.length = 5) (h l : Byte) :
    frameCheck (stx :: (xs ++ [h, l, etx])) = if h = hi (crc16 xs) ∧ l = lo (crc16 xs) then .ok else .eCrc := by
  match xs, h5 with
  | [m, e, d1, d2, d3], _ =>
    simp only [← crcRight_nine stx m e d1 d2 d3 h l etx]
    rfl

/-- A valid frame is five bytes and their CRC between STX and ETX. -/
theorem eq_candidate_of_valid {f : List Byte} (h9 : f.length = 9) (hf : frameCheck f = .ok) :
    ∃ xs, xs.length = 5 ∧ f = stx :: (xs ++ [hi (crc16 xs), lo (crc16 xs), etx]) := by
  obtain ⟨mid, h7, rfl, hcrc⟩ := valid_shape f h9 hf
  match mid, h7 with
  | [m, e, d1, d2, d3, h, l], _ =>
    obtain ⟨rfl, rfl⟩ := (crcRight_nine stx m e d1 d2 d3 h l etx).1 hcrc
    exact ⟨[m, e, d1, d2, d3], rfl, rfl⟩

end Sys2Proof.Machine

namespace Sys2Proof

open Machine Safety

/-- Settles O33: a flipped bit of the five bytes changes their CRC, and a flipped bit of the two bytes after them changes
what is compared with it. -/
theorem crcCatchesEveryFlippedBit : Obligations.CrcCatchesEveryFlippedBit := by
  intro f j h9 hf h8 h64
  obtain ⟨xs, h5, rfl⟩ := eq_candidate_of_valid h9 hf
  obtain ⟨i, rfl⟩ := Nat.exists_eq_add_of_le' h8
  rw [flipBit_cons_add]
  by_cases hi40 : i < 8 * xs.length
  · rw [flipBit_append_left hi40, frameCheck_candidate ((flipBit_length xs i).trans h5)]
    exact if_neg fun ⟨hhi, hlo⟩ => crc16_flipBit_ne h5.le hi40 (half_ext _ _ hhi hlo).symm
  obtain ⟨k, rfl⟩ := Nat.exists_eq_add_of_le' (Nat.le_of_not_lt hi40)
  rw [flipBit_append_right]
  by_cases hk : k < 8
  · rw [flipBit_cons_low _ _ hk, frameCheck_candidate h5]
    exact if_neg fun ⟨hhi, _⟩ => byte_xor_ne_self _ _ (bit_ne_zero k hk) hhi
  · obtain ⟨k, rfl⟩ := Nat.exists_eq_add_of_le' (Nat.le_of_not_lt hk)
    have hk' : k < 8 := by omega
    rw [flipBit_cons_add, flipBit_cons_low _ _ hk', frameCheck_candidate h5]
    exact if_neg fun ⟨_, hlo⟩ => byte_xor_ne_self _ _ (bit_ne_zero k hk') hlo

end Sys2Proof
end

section
/-! The frame encoder, the two commands on both link states, and an encoded frame decoded and received (41_tx.md R120 to
R125). -/

namespace Sys2Proof.Machine

open Sys2Proof.Safety

/-- The SetBuzzer payload carries the on state for every nonzero operand. -/
theorem buzPayload_isOn (on : Byte) :
    buzPayload (isOn on) = ⟨cmdMod, buzSel, if on = 0x00#8 then codeUp else codeDown, pad, pad⟩ := by
  by_cases h0 : on = 0x00#8
  · subst h0
    rfl
  · have hon : isOn on = true := bne_iff_ne.2 h0
    rw [hon, if_neg h0]
    rfl

/-- An operation that transmits a frame puts it on the stream of a live link. -/
theorem exec_transmit_up {i : Instr} (hi : i.isFrame = false) {f : List Byte} (hop : opOf i = transmit f) {s : State}
    (hup : s.codec.linkUp = true) :
    exec i s = .next (after s { s.codec with txStream := s.codec.txStream ++ f } .ok .none []) := by
  rw [exec_op i s hi, hop, State.perform, transmit_up f hup]
  rfl

/-- On a down link it only counts the drop. -/
theorem exec_transmit_down {i : Instr} (hi : i.isFrame = false) {f : List Byte} (hop : opOf i = transmit f) {s : State}
    (hdown : s.codec.linkUp = false) :
    exec i s = .next (after s { s.codec with cntTxDropped := s.codec.cntTxDropped + 1#32 } .eNotConnected .none []) := by
  rw [exec_op i s hi, hop, State.perform, transmit_down f hdown]
  rfl

theorem payloadOf_frameEncode (p : Payload) : payloadOf (frameEncode p) = p := rfl

theorem crcRight_frameEncode (p : Payload) : crcRight (frameEncode p) = true :=
  (crcRight_nine _ _ _ _ _ _ _ _ _).2 ⟨rfl, rfl⟩

/-- DEC answers the payload of a frame that passes the check. -/
theorem decResult_of_ok {f : List Byte} (h : frameCheck f = .ok) : decResult f = report .ok (payloadOf f).bytes := by
  unfold decResult
  rw [h]

/-- So what the encoder builds is decoded to the payload it was built from. -/
theorem decResult_frameEncode (p : Payload) : decResult (frameEncode p) = report .ok p.bytes := by
  rw [decResult_of_ok (frameEncode_ok p), payloadOf_frameEncode]

/-- The scanner with an empty buffer takes an encoded frame for one candidate and yields its payload. -/
theorem receive_frameEncode {c : Codec} (hup : c.linkUp = true) (hbuf : c.rxbuf = []) (p : Payload) :
    receive c (frameEncode p) = { c with
      rxFrames := c.rxFrames ++ [p]
      cntFramesOk := c.cntFramesOk + 1#32
      keyEvents := c.keyEvents ++ keyEventsOf c p.mod p.sel p.d1 p.d2 } := by
  have hcandidate : receive c (frameEncode p) = (completeFrame c (frameEncode p)).1 :=
    receive_candidate_of_empty hup hbuf (mid := p.bytes ++ bytes16 (crc16 p.bytes)) rfl
  rw [hcandidate, completeFrame_right _ _ (crcRight_frameEncode p), payloadOf_frameEncode]
  rfl

end Sys2Proof.Machine

namespace Sys2Proof

open Machine Safety

/-- Settles O51: the frame passes the check, so DEC answers its payload, and from an empty buffer its nine bytes are one
candidate with the right CRC. -/
theorem encodedFrameRoundTrips : Obligations.EncodedFrameRoundTrips := by
  refine fun s m e d1 d2 d3 => ⟨frameEncode_ok _, fun h l henc => ?_, fun hup hbuf => ⟨_, runOps_rxBytes _ s, ?_⟩⟩
  · have hdec := henc ▸ decResult_frameEncode ⟨m, e, d1, d2, d3⟩
    rw [exec_op _ s rfl, State.perform, opOf, hdec]
    rfl
  · rw [deliver_codec, receive_frameEncode hup hbuf]

/-- Settles O35: either command transmits the frame of its payload, and the link decides what that does. -/
theorem commandsTransmitWhenLinked : Obligations.CommandsTransmitWhenLinked := by
  refine ⟨fun _ _ _ => rfl, fun _ _ => rfl, fun s i e d1 d2 hi => ?_⟩
  obtain ⟨hframe, hop⟩ : i.isFrame = false ∧ opOf i = transmit (frameEncode ⟨cmdMod, e, d1, d2, pad⟩) := by
    obtain ⟨rfl, rfl⟩ | ⟨on, rfl, rfl, rfl, rfl⟩ := hi
    · exact ⟨rfl, rfl⟩
    · exact ⟨rfl, congrArg (fun p => transmit (frameEncode p)) (buzPayload_isOn on)⟩
  exact ⟨exec_transmit_up hframe hop, exec_transmit_down hframe hop⟩

/-- Settles O34: ENC answers the frame that `frame_encode` builds, and writes nothing. -/
theorem encReturnsTheFrame : Obligations.EncReturnsTheFrame :=
  ⟨fun _ _ _ _ _ _ => rfl, fun s m e d1 d2 d3 => exec_op (.enc m e d1 d2 d3) s rfl⟩

end Sys2Proof
end

section
/-! The bound of the receive buffer (42_rx.md R141). -/

namespace Sys2Proof

open Machine Safety

/-- Settles O4: a step leaves the block as it was, or reset, or as one instruction leaves it, and each keeps the bound. -/
theorem stepKeepsRxbufBound : Obligations.StepKeepsRxbufBound := by
  intro s t hs ht
  obtain hsame | hreset | ⟨i, hi⟩ := step_codec s t ht
  · rwa [RxBound, hsame]
  · rw [RxBound, hreset]
    exact Nat.zero_le 8
  · rw [RxBound, hi]
    exact codecAfter_bound i s.codec hs

/-- Settles O3: an empty buffer is within the bound, and empty ports hold the empty list of operations. -/
theorem rxbufBoundHoldsAtReset : Obligations.RxbufBoundHoldsAtReset := by
  have hnone : WholeOps [] := ⟨[], List.forall_mem_nil _, rfl⟩
  exact ⟨Nat.zero_le 8, hnone, hnone⟩

end Sys2Proof
end

section
/-! What one received byte does, as an equation for each case of the scanner (42_rx.md R143 to R145). -/

namespace Sys2Proof.Machine

open Sys2Proof.Safety

/-- RX.BYTE answers what the scanner answers for its byte. -/
theorem exec_rxByte {b : Byte} {s : State} {d : Codec} {st : Status} {ev : Event} {data : List Byte}
    (h : rxByteOp b s.codec = (d, ⟨st, ev, data⟩)) : exec (.rxByte b) s = .next (after s d st ev data) := by
  rw [exec_op _ s rfl, State.perform, opOf, h]
  rfl

theorem exec_rxByte_down {b : Byte} {s : State} (hdown : s.codec.linkUp = false) :
    exec (.rxByte b) s = .next (after s s.codec .eNotConnected .none []) :=
  exec_rxByte (rxByteOp_down b s.codec hdown)

/-- The ninth of nine bytes is the one behind STX and seven more. -/
theorem byteAt_eight (x : Byte) {mid : List Byte} (h7 : mid.length = 7) (e : Byte) :
    byteAt (x :: mid ++ [e]) 8 = e := by
  have h8 : (x :: mid).length = 8 := by rw [List.length_cons, h7]
  exact h8 ▸ byteAt_append_length (x :: mid) e []

/-- Nine bytes without STX are all discarded. -/
theorem rxByteOp_noStx {b : Byte} {c : Codec} (hup : c.linkUp = true) (h8 : c.rxbuf.length = 8)
    (hno : stx ∉ c.rxbuf ++ [b]) : rxByteOp b c =
      ({ c with rxbuf := [], cntSyncDrop := c.cntSyncDrop + 9#32 }, ⟨.ok, .syncDrop, [9#8]⟩) := by
  have h9 : (c.rxbuf ++ [b]).length = 9 := by simp [h8]
  rw [rxByteOp_nine b c hup h8.ge, decide9_noStx _ _ hno, syncDrop_eq, List.drop_length, h9]

/-- The noise in front of the first STX is discarded. -/
theorem rxByteOp_noise {b : Byte} {c : Codec} (hup : c.linkUp = true) (h8 : c.rxbuf.length = 8) {pre post : List Byte}
    (hsplit : c.rxbuf ++ [b] = pre ++ stx :: post) (hpre : pre ≠ []) (hno : stx ∉ pre) : rxByteOp b c =
      ({ c with rxbuf := stx :: post, cntSyncDrop := c.cntSyncDrop + BitVec.ofNat 32 pre.length },
        ⟨.ok, .syncDrop, [BitVec.ofNat 8 pre.length]⟩) := by
  rw [rxByteOp_nine b c hup h8.ge, hsplit, decide9_noise _ _ _ hpre hno, syncDrop_eq, List.drop_left]

/-- An STX without its ETX is discarded. -/
theorem rxByteOp_falseStx {b : Byte} {c : Codec} (hup : c.linkUp = true) {mid : List Byte}
    (hbuf : c.rxbuf = stx :: mid) (h7 : mid.length = 7) (hb : b ≠ etx) : rxByteOp b c =
      ({ c with rxbuf := mid ++ [b], cntSyncDrop := c.cntSyncDrop + 1#32 }, ⟨.ok, .syncDrop, [1#8]⟩) := by
  have h9 := byteAt_eight stx h7 b
  rw [rxByteOp_nine b c hup (by simp [hbuf, h7]), hbuf]
  exact decide9_falseStx c (mid ++ [b]) (h9.symm ▸ hb)

/-- STX and ETX in their places make a candidate of the nine bytes. -/
theorem rxByteOp_candidate {c : Codec} (hup : c.linkUp = true) {mid : List Byte} (hbuf : c.rxbuf = stx :: mid)
    (h7 : mid.length = 7) : rxByteOp etx c = completeFrame (c.setRxbuf []) (stx :: mid ++ [etx]) := by
  have h9 : (stx :: mid ++ [etx]).length = frameLen := by simp [h7]
  rw [rxByteOp_nine etx c hup (by simp [hbuf, h7]), hbuf]
  have hdecide := decide9_candidate c (mid ++ [etx]) (byteAt_eight stx h7 etx)
  rwa [← List.cons_append, List.drop_of_length_le h9.le, List.take_of_length_le h9.le] at hdecide

/-- One received byte only changes the buffer, or discards bytes of a buffer it has filled, or completes a candidate and
empties the buffer. -/
theorem rxByteOp_outcome (b : Byte) (c : Codec) (hl : c.rxbuf.length ≤ 8) :
    (∃ x st data, rxByteOp b c = (c.setRxbuf x, report st data)) ∨
    (∃ n, 1 ≤ n ∧ n ≤ 9 ∧ c.rxbuf.length = 8 ∧ rxByteOp b c = syncDrop c (c.rxbuf ++ [b]) n) ∨
    (∃ f, rxByteOp b c = completeFrame (c.setRxbuf []) f) := by
  cases hup : c.linkUp with
  | false => exact .inl ⟨c.rxbuf, _, _, rxByteOp_down b c hup⟩
  | true =>
    obtain ⟨-, he⟩ | ⟨h8, -, he⟩ | ⟨pre, post, h8, hpre, -, hsplit, he⟩ | ⟨post, h7, hbuf, -, he⟩ |
      ⟨post, -, -, -, he⟩ := rxByteOp_cases b c hup hl
    · exact .inl ⟨_, _, _, he⟩
    · exact .inr (.inl ⟨9, by decide, le_rfl, h8, he⟩)
    · have hlen : (c.rxbuf ++ [b]).length = (pre ++ stx :: post).length := congrArg List.length hsplit
      have hpos : 0 < pre.length := List.length_pos_of_ne_nil hpre
      simp only [List.length_append, List.length_cons, List.length_nil] at hlen
      exact .inr (.inl ⟨pre.length, hpos, by omega, h8, hsplit ▸ he⟩)
    · exact .inr (.inl ⟨1, le_rfl, by decide, by rw [hbuf, List.length_cons, h7], hbuf ▸ he⟩)
    · exact .inr (.inr ⟨_, he⟩)

/-- A frame adds at most one key event. -/
theorem keyEventsOf_length_le (c : Codec) (mod sel d1 d2 : Byte) : (keyEventsOf c mod sel d1 d2).length ≤ 1 := by
  unfold keyEventsOf
  split
  · split
    · exact le_rfl
    · exact Nat.zero_le 1
  · exact Nat.zero_le 1

end Sys2Proof.Machine

namespace Sys2Proof

open Machine Safety

/-- Settles O39: the link, the buffer's length, the place of the first STX and the CRC choose the equation that applies. -/
theorem rxByteFollowsTheScanner : Obligations.RxByteFollowsTheScanner := by
  refine ⟨fun _ _ => rfl, fun s b => exec_rxByte_down, fun s b hup _ => ⟨?_, ?_, ?_, ?_, ?_⟩⟩
  · exact fun h8 => exec_rxByte (rxByteOp_short b _ hup h8)
  · exact fun h8 hno => exec_rxByte (rxByteOp_noStx hup h8 hno)
  · exact fun pre post h8 hsplit hpre hno => exec_rxByte (rxByteOp_noise hup h8 hsplit hpre hno)
  · exact fun post hbuf h7 hb => exec_rxByte (rxByteOp_falseStx hup hbuf h7 hb)
  · rintro m e d1 d2 d3 h l hbuf rfl
    have hcandidate := rxByteOp_candidate hup hbuf rfl
    have hcrc := crcRight_nine stx m e d1 d2 d3 h l etx
    refine ⟨fun hright => exec_rxByte ?_, fun hwrong => exec_rxByte ?_⟩
    · exact hcandidate.trans (completeFrame_right _ _ (hcrc.2 hright))
    · exact hcandidate.trans (completeFrame_wrong _ _ (Bool.eq_false_iff.2 (mt hcrc.1 hwrong)))

/-- Settles O40: a changed buffer is no decision, and a completed candidate is yielded or dropped by its CRC. -/
theorem oneDecisionPerByte : Obligations.OneDecisionPerByte := by
  intro s b hl
  refine ⟨_, _, exec_op (.rxByte b) s rfl, rfl, ?_⟩
  rw [State.perform_codec, opOf]
  obtain ⟨x, st, data, he⟩ | ⟨n, h1, h9, h8, he⟩ | ⟨f, he⟩ := rxByteOp_outcome b s.codec hl <;> rw [he]
  · exact .inl ⟨rfl, rfl⟩
  · have hlen : ((s.codec.rxbuf ++ [b]).drop n).length + n = s.codec.rxbuf.length + 1 := by
      rw [List.length_drop, List.length_append, List.length_singleton]
      omega
    exact .inr (.inl ⟨rfl, n, h1, h9, rfl, hlen, rfl⟩)
  · cases hcrc : crcRight f with
    | false =>
      rw [completeFrame_wrong _ _ hcrc]
      exact .inr (.inr (.inl ⟨rfl, rfl⟩))
    | true =>
      rw [completeFrame_right _ _ hcrc]
      exact .inr (.inr (.inr ⟨rfl, payloadOf f, _, keyEventsOf_length_le _ _ _ _ _, rfl, rfl⟩))

/-- Settles O38: the scanner is not entered on a down link. -/
theorem rxByteOnADownLink : Obligations.RxByteOnADownLink :=
  fun _ _ => exec_rxByte_down

/-- Settles O48: each link event sets the link and empties the buffer in its one write. -/
theorem linkEventsEmptyTheBuffer : Obligations.LinkEventsEmptyTheBuffer :=
  ⟨fun _ => rfl, fun _ => rfl, fun s => exec_op .linkUp s rfl, fun s => exec_op .linkDown s rfl⟩

end Sys2Proof
end

section
/-! RX.BYTE and the source's scanner over chunks (42_rx.md R148, R149). -/

namespace Sys2Proof.Machine

open Sys2Proof.Safety

/-- The loop stops at a buffer of less than a frame. -/
theorem feedLoop_short {c : Codec} (h : c.rxbuf.length < frameLen) (n : Nat) : feedLoop n c = c := by
  cases n with
  | zero => rfl
  | succ n => exact if_pos h

/-- On a buffer of nine bytes the loop makes the scanner's one decision, which leaves less than a frame. -/
theorem feedLoop_nine {c : Codec} (h9 : c.rxbuf.length = 9) (n : Nat) :
    feedLoop (n + 1) c = (decide9 c c.rxbuf).1 := by
  have hdrop (k : Nat) : (c.rxbuf.drop (k + 1)).length < frameLen := by
    rw [List.length_drop, h9, frameLen]
    omega
  rw [feedLoop, if_neg h9.not_lt, decide9]
  cases firstIndex stx c.rxbuf with
  | none => rfl
  | some k =>
    cases k with
    | zero =>
      simp only [if_true, if_neg h9.not_lt]
      split
      · exact feedLoop_short (hdrop 0) n
      · exact feedLoop_short (by rw [completeFrame_rxbuf]; exact hdrop 8) n
    | succ k => exact if_pos (hdrop k)

/-- With the link up a received byte does what the source's feed of that byte alone does. -/
theorem feedChunk_singleton {c : Codec} (hup : c.linkUp = true) (hl : c.rxbuf.length ≤ 8) (b : Byte) :
    feedChunk c [b] = (rxByteOp b c).1 := by
  have hlen : (c.rxbuf ++ [b]).length = c.rxbuf.length + 1 := List.length_append
  by_cases h8 : c.rxbuf.length < 8
  · rw [rxByteOp_short b c hup h8]
    exact feedLoop_short (hlen.trans_lt (Nat.succ_lt_succ h8)) _
  · have h8' : c.rxbuf.length = 8 := le_antisymm hl (Nat.le_of_not_lt h8)
    rw [rxByteOp_nine b c hup h8'.ge]
    exact feedLoop_nine (hlen.trans (congrArg (· + 1) h8')) _

/-- Two blocks that account for as many bytes, and have decided as many candidates, differ in SYNC_DROP by what they buffer. -/
theorem cntSyncDrop_add_length_eq {c d : Codec} (hacc : accounted c = accounted d) (hok : c.cntFramesOk = d.cntFramesOk)
    (herr : c.cntCrcErr = d.cntCrcErr) : c.cntSyncDrop + BitVec.ofNat 32 c.rxbuf.length =
      d.cntSyncDrop + BitVec.ofNat 32 d.rxbuf.length := by
  unfold accounted at hacc
  rw [hok, herr] at hacc
  exact add_right_cancel hacc

end Sys2Proof.Machine

namespace Sys2Proof

open Machine Safety

/-- Settles O42: byte by byte and over any chunks the block is the same up to noise, and accounts for the same bytes. -/
theorem chunkingKeepsTheFrames : Obligations.ChunkingKeepsTheFrames := by
  intro s chunks hup hl
  refine ⟨_, runOps_rxBytes _ s, ?_⟩
  rw [deliver_codec]
  obtain ⟨hfr, hke, hok, herr, hbuf⟩ := quiet_eq _ _ (feedAll_spec chunks s.codec hup hl).symm
  have hacc : accounted (receive s.codec chunks.flatten) = accounted (feedAll s.codec chunks) := by
    rw [accounted_receive _ _ hup hl, accounted_feedAll]
  exact ⟨hfr, hke, hok, herr, hbuf, cntSyncDrop_add_length_eq hacc hok herr⟩

/-- Settles O41: below nine bytes both buffer the byte, and at nine both make the same decision. -/
theorem rxByteEqualsFeedChunk : Obligations.RxByteEqualsFeedChunk :=
  fun s b hup hl => ⟨_, exec_op (.rxByte b) s rfl, (feedChunk_singleton hup hl b).symm⟩

end Sys2Proof
end

section
/-! Received bytes behind noise (42_rx.md R150, R153, R154). -/

namespace Sys2Proof.Machine

open Sys2Proof.Safety

/-- The block with other values in its counters. -/
def Codec.withCounters (c : Codec) (f e d x : Word) : Codec :=
  { c with cntFramesOk := f, cntCrcErr := e, cntSyncDrop := d, cntTxDropped := x }

/-- Received bytes do not read the counters: they move them by as much as they would from other values. -/
theorem receive_withCounters (bs : List Byte) (c : Codec) (f e d x : Word) : receive (c.withCounters f e d x) bs =
    (receive c bs).withOffsets (f - c.cntFramesOk) (e - c.cntCrcErr) (d - c.cntSyncDrop) (x - c.cntTxDropped) := by
  rw [← receive_withOffsets]
  simp only [Codec.withCounters, Codec.withOffsets, add_sub_cancel]

/-- Noise in front of a buffer is not seen. -/
theorem quiet_noise (c : Codec) {p : List Byte} (hp : stx ∉ p) (x : List Byte) :
    quiet (c.setRxbuf (p ++ x)) = quiet (c.setRxbuf x) := by
  rw [quiet_setRxbuf, quiet_setRxbuf, stripNoise_noise p x hp]

/-- What is left of a buffer without its noise is nothing exactly when no STX is in it. -/
theorem stripNoise_eq_nil_iff (x : List Byte) : stripNoise x = [] ↔ stx ∉ x := by
  refine ⟨fun h => ?_, stripNoise_none x⟩
  obtain ⟨p, hp, hx⟩ := noise_split x
  rwa [hx, h, List.append_nil]

/-- A buffer that is no longer without its noise than with it has none. -/
theorem stripNoise_eq_self {x : List Byte} (h : x.length ≤ (stripNoise x).length) : stripNoise x = x := by
  obtain ⟨p, -, hx⟩ := noise_split x
  have hlen := congrArg List.length hx
  rw [List.length_append] at hlen
  have hp : p = [] := List.length_eq_zero_iff.1 (by omega)
  rw [hp, List.nil_append] at hx
  exact hx.symm

/-- Blocks that agree up to noise differ in the buffer and in SYNC_DROP only. -/
theorem eq_of_quiet_eq {c d : Codec} (h : quiet c = quiet d) :
    c = { d with rxbuf := c.rxbuf, cntSyncDrop := c.cntSyncDrop } := by
  have hc : c = { quiet c with rxbuf := c.rxbuf, cntSyncDrop := c.cntSyncDrop } := rfl
  rw [hc, h]
  rfl

/-- Garbage without STX behind noise is noise: it may only be discarded and counted. -/
theorem receive_noise {c : Codec} (hup : c.linkUp = true) (hl : c.rxbuf.length ≤ 8) (hn : stx ∉ c.rxbuf) {g : List Byte}
    (hg : stx ∉ g) : ∃ x n, stx ∉ x ∧ x.length ≤ 8 ∧ receive c g = { c with rxbuf := x, cntSyncDrop := n } := by
  have hq := quiet_receive_noise g c hup hl hn hg
  have hno : stx ∉ (receive c g).rxbuf := by
    rw [← stripNoise_eq_nil_iff, ← quiet_rxbuf, hq, quiet_rxbuf, stripNoise_none _ hn]
  exact ⟨_, _, hno, receive_bound g c hl, eq_of_quiet_eq hq⟩

/-- Behind noise, STX and seven more bytes fill the buffer: the noise has gone. -/
theorem receive_eight_rxbuf {c : Codec} (hup : c.linkUp = true) (hl : c.rxbuf.length ≤ 8) (hn : stx ∉ c.rxbuf)
    {mid : List Byte} (h7 : mid.length = 7) : (receive c (stx :: mid)).rxbuf = stx :: mid := by
  have h8 : (stx :: mid).length = 8 := by rw [List.length_cons, h7]
  have hclear : quiet (receive c (stx :: mid)) = quiet (receive (c.setRxbuf []) (stx :: mid)) :=
    quiet_receive_congr _ _ _ hup hl (Nat.zero_le 8) (quiet_clear c hn).symm
  have hstrip : stripNoise (receive c (stx :: mid)).rxbuf = stx :: mid := by
    rw [← quiet_rxbuf, hclear, receive_short (stx :: mid) (c.setRxbuf []) hup (by simp [h7])]
    exact stripNoise_stx mid
  have hself := stripNoise_eq_self ((receive_bound (stx :: mid) c hl).trans (by rw [hstrip, h8]))
  exact hself.symm.trans hstrip

/-- A valid frame behind noise is yielded, and the buffer is empty then. -/
theorem receive_valid_behind_noise {c : Codec} (hup : c.linkUp = true) (hl : c.rxbuf.length ≤ 8) (hn : stx ∉ c.rxbuf)
    {f : List Byte} (h9 : f.length = 9) (hf : frameCheck f = .ok) : ∃ n, receive c f = { c with
      rxbuf := []
      cntSyncDrop := n
      rxFrames := c.rxFrames ++ [payloadOf f]
      cntFramesOk := c.cntFramesOk + 1#32
      keyEvents := c.keyEvents ++ keyEventsOf c (byteAt f 1) (byteAt f 2) (byteAt f 3) (byteAt f 4) } := by
  have hq : quiet (receive c f) = quiet (receive (c.setRxbuf []) f) :=
    quiet_receive_congr f _ _ hup hl (Nat.zero_le 8) (quiet_clear c hn).symm
  have hempty : (receive c f).rxbuf = [] := by
    obtain ⟨mid, h7, rfl, -⟩ := valid_shape f h9 hf
    rw [receive_append, receive_cons, receive_nil, rxByteOp_candidate ((receive_linkUp _ c).trans hup)
      (receive_eight_rxbuf hup hl hn h7) h7, completeFrame_rxbuf]
    rfl
  rw [receive_valid (c.setRxbuf []) f hup rfl h9 hf] at hq
  have heq := eq_of_quiet_eq hq
  rw [hempty] at heq
  exact ⟨_, heq⟩

/-- Two valid frames behind noise are both yielded. -/
theorem receive_two_valid {c : Codec} (hup : c.linkUp = true) (hl : c.rxbuf.length ≤ 8) (hn : stx ∉ c.rxbuf)
    {f g : List Byte} (hf9 : f.length = 9) (hf : frameCheck f = .ok) (hg9 : g.length = 9) (hg : frameCheck g = .ok) :
    (receive c (f ++ g)).rxFrames = c.rxFrames ++ [payloadOf f, payloadOf g] ∧ (receive c (f ++ g)).rxbuf = [] := by
  obtain ⟨n, hc⟩ := receive_valid_behind_noise hup hl hn hf9 hf
  have hempty : (receive c f).rxbuf = [] := congrArg Codec.rxbuf hc
  rw [receive_append, receive_valid _ g ((receive_linkUp f c).trans hup) hempty hg9 hg, hc]
  exact ⟨List.append_assoc .., rfl⟩

end Sys2Proof.Machine

namespace Sys2Proof

open Machine Safety

/-- Settles O43: the second run is a run from the same block up to noise, with its counters offset. -/
theorem leadingNoiseIsInvisible : Obligations.LeadingNoiseIsInvisible := by
  intro s p q b bs f e d x hup hp hq hpl hql
  have hnoise : quiet (s.codec.setRxbuf (p ++ b)) = quiet (s.codec.setRxbuf (q ++ b)) :=
    (quiet_noise s.codec hp b).trans (quiet_noise s.codec hq b).symm
  obtain ⟨hfr, hke, hok, herr, hbuf⟩ :=
    quiet_eq _ _ (quiet_receive_congr bs (s.codec.setRxbuf (p ++ b)) _ hup hpl hql hnoise)
  have hmoved (n c v : Word) : n - c = n + (v - c) - v := by ring
  refine ⟨_, deliver { s with codec := (s.codec.setRxbuf (q ++ b)).withCounters f e d x } bs, runOps_rxBytes bs _,
    runOps_rxBytes bs _, ?_⟩
  rw [deliver_codec, deliver_codec, receive_withCounters]
  exact ⟨hfr, hke, hok ▸ hmoved _ _ f, herr ▸ hmoved _ _ e, hbuf⟩

/-- Settles O45: the garbage is noise, and the frame is received behind it. -/
theorem garbageThenFrameYieldsIt : Obligations.GarbageThenFrameYieldsIt := by
  intro s g f hup hl hn hg h9 hf
  refine ⟨_, runOps_rxBytes (g ++ f) s, ?_⟩
  obtain ⟨x, n, hx, hxl, hgarbage⟩ := receive_noise hup hl hn hg
  obtain ⟨m, hframe⟩ := receive_valid_behind_noise (c := { s.codec with rxbuf := x, cntSyncDrop := n }) hup hxl hx h9 hf
  rw [deliver_codec, receive_append, hgarbage, hframe]
  exact ⟨rfl, rfl, rfl, rfl⟩

/-- Settles O46: byte by byte the second frame finds the empty buffer that the first leaves, and chunking keeps the
frames. -/
theorem twoFramesYieldBoth : Obligations.TwoFramesYieldBoth := by
  intro s f g hup hl hn hf9 hf hg9 hg
  have htwo := receive_two_valid hup hl hn hf9 hf hg9 hg
  refine ⟨⟨_, runOps_rxBytes (f ++ g) s, by rwa [deliver_codec]⟩, fun chunks hchunks => ?_⟩
  obtain ⟨hfr, -⟩ := quiet_eq _ _ (feedAll_spec chunks s.codec hup hl)
  rw [hfr, hchunks, htwo.1]

end Sys2Proof
end

section
/-! A flipped bit, and noise that holds an STX (42_rx.md R152, R155). -/

namespace Sys2Proof.Machine

open Sys2Proof.Safety

/-- A flipped bit of STX, of the bytes the CRC covers or of the CRC, or of ETX makes a valid frame invalid. -/
theorem frameCheck_flipBit_ne_ok {f : List Byte} (h9 : f.length = 9) (hf : frameCheck f = .ok) {j : Nat} (hj : j < 72) :
    frameCheck (flipBit f j) ≠ .ok := by
  intro hflip
  obtain ⟨mid, h7, hshape, -⟩ := valid_shape f h9 hf
  obtain ⟨mid', h7', hshape', -⟩ := valid_shape (flipBit f j) ((flipBit_length f j).trans h9) hflip
  by_cases h8 : j < 8
  · rw [hshape, List.cons_append, flipBit_cons_low _ _ h8] at hshape'
    exact byte_xor_ne_self _ _ (bit_ne_zero j h8) (List.cons.inj hshape').1
  by_cases h64 : j < 64
  · have hcrc := crcCatchesEveryFlippedBit f j h9 hf (Nat.le_of_not_lt h8) h64
    rw [hcrc] at hflip
    cases hflip
  · obtain ⟨k, rfl⟩ := Nat.exists_eq_add_of_le' (Nat.le_of_not_lt h64)
    have hk : k < 8 := by omega
    have hbefore : 64 = 8 * (stx :: mid).length := by rw [List.length_cons, h7]
    rw [hshape, hbefore, flipBit_append_right, flipBit_cons_low _ _ hk] at hshape'
    have hlast := List.append_inj_right' hshape' rfl
    exact byte_xor_ne_self _ _ (bit_ne_zero k hk) (List.cons.inj hlast).1

theorem deliver_append (s : State) (as bs : List Byte) : deliver s (as ++ bs) = deliver (deliver s as) bs :=
  List.foldl_append

/-- Fewer than nine bytes behind a valid frame, into an empty buffer, stay buffered when the frame is yielded. -/
theorem receive_valid_append_short {c : Codec} (hup : c.linkUp = true) (hbuf : c.rxbuf = []) {f x : List Byte}
    (h9 : f.length = 9) (hf : frameCheck f = .ok) (hx : x.length ≤ 8) : receive c (f ++ x) = { c with
      rxbuf := x
      rxFrames := c.rxFrames ++ [payloadOf f]
      cntFramesOk := c.cntFramesOk + 1#32
      keyEvents := c.keyEvents ++ keyEventsOf c (byteAt f 1) (byteAt f 2) (byteAt f 3) (byteAt f 4) } := by
  have hvalid := receive_valid c f hup hbuf h9 hf
  have hempty : (receive c f).rxbuf = [] := (congrArg Codec.rxbuf hvalid).trans hbuf
  rw [receive_append, receive_short x _ ((receive_linkUp f c).trans hup) (by simpa [hempty] using hx), hempty, hvalid]
  rfl

/-- Nine bytes with STX first and ETX last and no valid CRC, into an empty buffer: the last returns the CRC drop. -/
theorem deliver_wrongCrc {s : State} (hup : s.codec.linkUp = true) (hbuf : s.codec.rxbuf = []) {mid : List Byte}
    (h7 : mid.length = 7) (hcrc : crcRight (stx :: mid ++ [etx]) = false) :
    (deliver s (stx :: mid ++ [etx])).results.getLast? = some ⟨s.port, ⟨.ok, .crcDrop, []⟩⟩ ∧
      (deliver s (stx :: mid ++ [etx])).codec = s.codec.countCrcErr := by
  have hfull : (receive s.codec (stx :: mid)).rxbuf = stx :: mid := by
    rw [receive_short _ _ hup (by simp [hbuf, h7]), hbuf]
    rfl
  have hlast := rxByteOp_candidate ((receive_linkUp _ _).trans hup) hfull h7
  rw [completeFrame_wrong _ _ hcrc] at hlast
  obtain ⟨-, -, -, -, hport⟩ := deliver_frame (stx :: mid) s
  constructor
  · rw [deliver_append, deliver_cons, deliver_nil, State.perform_results, List.getLast?_concat, hport, deliver_codec,
      hlast]
  · rw [deliver_codec, receive_candidate_of_empty hup hbuf h7, completeFrame_wrong _ _ hcrc]
    rfl

end Sys2Proof.Machine

namespace Sys2Proof

open Machine Safety

/-- Settles O47: the nine bytes bring one decision, and they are no valid frame any more. -/
theorem flippedFrameNeverYields : Obligations.FlippedFrameNeverYields := by
  intro s f j hup hbuf h9 hf hj
  refine ⟨_, runOps_rxBytes _ s, ?_⟩
  rw [deliver_codec]
  exact receive_invalid s.codec _ hup hbuf ((flipBit_length f j).trans h9) (frameCheck_flipBit_ne_ok h9 hf hj)

/-- Settles O44: in the first case the noise and eight bytes of the frame are a candidate with a wrong CRC, and in the second
the noise and two bytes of the frame are one with the right CRC. -/
theorem noiseCanLoseOrInventAFrame : Obligations.NoiseCanLoseOrInventAFrame := by
  intro s hup hbuf
  obtain ⟨hlast, hcodec⟩ := deliver_wrongCrc hup hbuf
    (mid := [0x02#8, 0x10#8, 0x30#8, 0x13#8, 0x20#8, 0x20#8, 0x1E#8]) rfl (by decide +kernel)
  have hphantom := receive_valid_append_short hup hbuf
    (f := [0x02#8, 0x3D#8, 0x31#8, 0x31#8, 0x30#8, 0x30#8, 0xE2#8, 0x02#8, 0x03#8])
    (x := [0x3D#8, 0x31#8, 0x05#8, 0x20#8, 0xEB#8, 0x3E#8, 0x03#8]) rfl (by decide +kernel) (by decide)
  refine ⟨⟨by decide +kernel, _, _, runOps_rxBytes _ s, hlast, rfl, _, exec_op (.rxByte 0x03#8) _ rfl, ?_⟩,
    by decide +kernel, _, runOps_rxBytes _ s, ?_⟩
  · refine (congrArg (fun c => (rxByteOp 0x03#8 c).1) hcodec).trans ?_
    rw [rxByteOp_short _ s.codec.countCrcErr hup (by simp [hbuf]), Codec.countCrcErr_rxbuf, hbuf]
    rfl
  · rw [deliver_codec]
    exact ⟨congrArg Codec.rxFrames hphantom, congrArg Codec.cntFramesOk hphantom, (congrArg Codec.cntCrcErr hphantom :),
      congrArg Codec.rxbuf hphantom⟩

end Sys2Proof
end

section
/-! The two decoders, in the order of their tests, and DEC beside the receive scanner (43_decode.md R170 to R175). -/

namespace Sys2Proof.Machine

open Sys2Proof.Safety

/-- An operation answers a state `after` it with exactly the block and the record that `opOf` gives. -/
theorem exec_eq_after_iff {i : Instr} (hi : i.isFrame = false) (s : State) (c : Codec) (st : Status) (ev : Event)
    (data : List Byte) : exec i s = .next (after s c st ev data) ↔ opOf i s.codec = (c, ⟨st, ev, data⟩) := by
  rw [exec_op i s hi, State.perform, State.finish, after]
  constructor
  · intro h
    injection h with hstate
    injection hstate with hcodec _ _ _ _ _ hresults
    simp only [List.append_cancel_left_eq, List.cons.injEq, Returned.mk.injEq, true_and, and_true] at hresults
    exact Prod.ext hcodec hresults
  · intro h
    rw [h]

/-! ### DEC -/

/-- DEC leaves the block, and its record is that of `decResult`. -/
theorem exec_dec_iff (b0 b1 b2 b3 b4 b5 b6 b7 b8 : Byte) (s : State) (st : Status) (data : List Byte) :
    exec (.dec b0 b1 b2 b3 b4 b5 b6 b7 b8) s = .next (after s s.codec st .none data) ↔
      decResult [b0, b1, b2, b3, b4, b5, b6, b7, b8] = report st data :=
  (exec_eq_after_iff rfl s _ _ _ _).trans (Prod.mk_right_inj (a := s.codec))

/-- DEC answers with the first of the three tests that fails, or with the payload. -/
theorem decResult_nine (b0 b1 b2 b3 b4 b5 b6 b7 b8 : Byte) : decResult [b0, b1, b2, b3, b4, b5, b6, b7, b8] =
    if b0 ≠ stx then report .eBadStx []
    else if b8 ≠ etx then report .eBadEtx []
    else if b6 = hi (crc16 [b1, b2, b3, b4, b5]) ∧ b7 = lo (crc16 [b1, b2, b3, b4, b5]) then
      report .ok [b1, b2, b3, b4, b5]
    else report .eCrc [] := by
  have hcheck : frameCheck [b0, b1, b2, b3, b4, b5, b6, b7, b8] =
      if b0 ≠ stx then .eBadStx else if b8 ≠ etx then .eBadEtx
      else if crcRight [b0, b1, b2, b3, b4, b5, b6, b7, b8] then .ok else .eCrc := rfl
  simp only [← crcRight_nine b0 b1 b2 b3 b4 b5 b6 b7 b8]
  unfold decResult
  rw [hcheck]
  split_ifs <;> rfl

theorem decResult_status (f : List Byte) : (decResult f).status = frameCheck f := by
  unfold decResult
  split
  · next h => exact h.symm
  · rfl

theorem Payload.bytes_injective : Function.Injective Payload.bytes := by
  rintro ⟨⟩ ⟨⟩ h
  simpa [Payload.bytes] using h

/-- DEC answers OK only for a frame that passes the check, and then with its payload. -/
theorem decResult_eq_ok_iff (f : List Byte) (p : Payload) :
    decResult f = report .ok p.bytes ↔ frameCheck f = .ok ∧ payloadOf f = p := by
  by_cases hf : frameCheck f = .ok
  · simp [decResult_of_ok hf, hf, report, Payload.bytes_injective.eq_iff]
  · exact iff_of_false (fun h => hf ((decResult_status f).symm.trans (congrArg Result.status h))) fun h => hf h.1

/-- Nine bytes into an empty buffer on a live link add a payload exactly when they are a frame with that payload. -/
theorem receive_yields_iff {c : Codec} (hup : c.linkUp = true) (hbuf : c.rxbuf = []) {f : List Byte}
    (h9 : f.length = 9) (p : Payload) :
    (receive c f).rxFrames = c.rxFrames ++ [p] ↔ frameCheck f = .ok ∧ payloadOf f = p := by
  by_cases hf : frameCheck f = .ok
  · simp [receive_valid c f hup hbuf h9 hf, hf]
  · simp [(receive_invalid c f hup hbuf h9 hf).1, hf]

/-- What a run of RX.BYTE operations leaves in the block is what receiving their bytes leaves. -/
theorem exists_runOps_rxBytes_iff (bs : List Byte) (s : State) (P : Codec → Prop) :
    (∃ t, runOps (bs.map .rxByte) s = .next t ∧ P t.codec) ↔ P (receive s.codec bs) := by
  simp [runOps_rxBytes]

/-! ### KEYDEC -/

section

variable {table : Byte → Option KeyIndex} {keyMod keySel : Byte} {p : Payload}

theorem keydec_notKeypad (h : p.mod ≠ keyMod ∨ p.sel ≠ keySel) :
    keydec table keyMod keySel p = .error .nNotKeypad :=
  if_pos h

theorem keydec_badState (hm : p.mod = keyMod) (hs : p.sel = keySel) (hdown : p.d1 ≠ codeDown) (hup : p.d1 ≠ codeUp) :
    keydec table keyMod keySel p = .error .nBadState := by
  simp [keydec, hm, hs, hdown, hup]

/-- With the filter and DATA1 passed, the table alone decides. -/
theorem keydec_state (hm : p.mod = keyMod) (hs : p.sel = keySel) (hd : p.d1 = codeDown ∨ p.d1 = codeUp) :
    keydec table keyMod keySel p =
      (table p.d2).elim (.error .nUnmapped) fun k => .ok ⟨k, p.d1 == codeDown⟩ := by
  have hfilter : ¬(p.mod ≠ keyMod ∨ p.sel ≠ keySel) := by simp [hm, hs]
  have hcode : ¬(p.d1 ≠ codeDown ∧ p.d1 ≠ codeUp) := fun h => hd.elim h.1 h.2
  rw [keydec, if_neg hfilter, if_neg hcode]
  cases table p.d2 <;> rfl

end

theorem bitByte_beq (a b : Byte) : bitByte (a == b) = if a = b then 0x01#8 else 0x00#8 := by
  simp [bitByte]

/-- KEYDEC leaves the block and answers the record of what `keydec` finds. -/
theorem exec_keydec {s : State} {m e d1 d2 d3 : Byte} {r : Except Status KeyEvent} {st : Status} {data : List Byte}
    (hr : keydec Config.scanTable s.codec.keyMod s.codec.keySel ⟨m, e, d1, d2, d3⟩ = r)
    (hrec : keydecResult r = report st data) :
    exec (.keydec m e d1 d2 d3) s = .next (after s s.codec st .none data) :=
  (exec_eq_after_iff rfl s _ _ _ _).2 (congrArg (Prod.mk s.codec) ((congrArg keydecResult hr).trans hrec))

end Sys2Proof.Machine

namespace Sys2Proof

open Machine Safety

/-- Settles O50: DEC answers with the first test of `frame_check` that fails, or with the payload. -/
theorem decTestsInOrder : Obligations.DecTestsInOrder := by
  refine ⟨fun _ _ _ _ _ _ _ _ _ _ => rfl, fun s b0 b1 b2 b3 b4 b5 b6 b7 b8 => ?_⟩
  simp only [exec_dec_iff, decResult_nine]
  refine ⟨fun h0 => ?_, fun h0 h8 => ?_, fun h0 h8 hcrc => ?_, fun h0 h8 h6 h7 => ?_⟩
  · rw [if_pos h0]
  · rw [if_neg (not_not_intro h0), if_pos h8]
  · rw [if_neg (not_not_intro h0), if_neg (not_not_intro h8)]
    exact if_neg (not_and_or.2 hcrc)
  · rw [if_neg (not_not_intro h0), if_neg (not_not_intro h8)]
    exact if_pos ⟨h6, h7⟩

/-- Settles O52: both sides say that the nine bytes pass the check and carry this payload. -/
theorem decAgreesWithTheScanner : Obligations.DecAgreesWithTheScanner := by
  intro s b0 b1 b2 b3 b4 b5 b6 b7 b8 m e d1 d2 d3 hup hbuf
  calc exec (.dec b0 b1 b2 b3 b4 b5 b6 b7 b8) s = .next (after s s.codec .ok .none [m, e, d1, d2, d3])
    _ ↔ decResult [b0, b1, b2, b3, b4, b5, b6, b7, b8] = report .ok (Payload.mk m e d1 d2 d3).bytes := exec_dec_iff ..
    _ ↔ (receive s.codec [b0, b1, b2, b3, b4, b5, b6, b7, b8]).rxFrames = s.codec.rxFrames ++ [⟨m, e, d1, d2, d3⟩] :=
      (decResult_eq_ok_iff _ _).trans (receive_yields_iff hup hbuf rfl _).symm
    _ ↔ _ := (exists_runOps_rxBytes_iff _ s fun c => c.rxFrames = s.codec.rxFrames ++ [⟨m, e, d1, d2, d3⟩]).symm

/-- Settles O53: the filter, DATA1 and the table decide in the order of `keydec`, and the table's answer for DATA2 is
one of two. -/
theorem keydecTestsInOrder : Obligations.KeydecTestsInOrder := by
  refine ⟨fun _ _ _ _ _ _ => rfl, fun s m e d1 d2 d3 => ⟨fun h => exec_keydec (keydec_notKeypad h) rfl,
    fun hm he hdown hup => exec_keydec (keydec_badState hm he hdown hup) rfl, fun hm he hd => ?_⟩⟩
  have hkey := keydec_state (table := Config.scanTable) (p := ⟨m, e, d1, d2, d3⟩) hm he hd
  split
  · next htable => exact exec_keydec (hkey.trans (by rw [htable])) rfl
  · next k htable =>
    refine exec_keydec (hkey.trans (by rw [htable])) ?_
    rw [← bitByte_beq]
    rfl

end Sys2Proof
end

section
/-! NOP, the illegal opcodes, the two register operations and CNT.CLEAR (44_control.md R190 to R196). -/

namespace Sys2Proof

/-- A byte decodes as an illegal operation exactly when it is none of the fifteen opcodes. -/
theorem decodeOp_eq_illegal_iff (op : Byte) (rest : List Byte) :
    decodeOp (op :: rest) = .ok (.illegal op, rest) ↔ op ∉ assignedOpcodes := by
  refine ⟨fun hd => ?_, fun hop => (unassigned_opcode op hop rest).2⟩
  obtain ⟨-, hw, -⟩ := decodeOp_ok_encode hd
  simpa [Instr.wellFormed] using hw

/-- The bytes that are none of the fifteen opcodes are the six ranges of 30_encoding.md R78. -/
theorem not_mem_assignedOpcodes_iff : ∀ op : Byte, op ∉ assignedOpcodes ↔
    (0x01#8 ≤ op ∧ op ≤ 0x0F#8) ∨ (0x13#8 ≤ op ∧ op ≤ 0x1F#8) ∨ (0x23#8 ≤ op ∧ op ≤ 0x2F#8) ∨
      (0x33#8 ≤ op ∧ op ≤ 0x3F#8) ∨ (0x42#8 ≤ op ∧ op ≤ 0x4F#8) ∨ 0x53#8 ≤ op := by
  decide

end Sys2Proof

namespace Sys2Proof.Machine

open Sys2Proof.Safety

/-- REG.READ of an index that names a register returns its value, high byte first. -/
theorem exec_regRead_some {s : State} {idx : Byte} {v : Word} (h : readReg s.codec idx = some v) :
    exec (.regRead idx) s = .next (after s s.codec .ok .none (bytes32 v)) :=
  (exec_eq_after_iff rfl s _ _ _ _).2 (congrArg (fun o => (s.codec, readResult o)) h)

/-- REG.READ of an index that names none returns E_BAD_REG and four zero bytes. -/
theorem exec_regRead_none {s : State} {idx : Byte} (h : readReg s.codec idx = none) :
    exec (.regRead idx) s = .next (after s s.codec .eBadReg .none [0x00#8, 0x00#8, 0x00#8, 0x00#8]) :=
  (exec_eq_after_iff rfl s _ _ _ _).2 (congrArg (fun o => (s.codec, readResult o)) h)

/-- REG.WRITE of an index above the register file answers E_BAD_REG and changes nothing. -/
theorem exec_regWrite_reserved {idx : Byte} (h7 : 7 ≤ idx.toNat) (s : State) (v3 v2 v1 v0 : Byte) :
    exec (.regWrite idx v3 v2 v1 v0) s = .next (after s s.codec .eBadReg .none []) :=
  (exec_eq_after_iff rfl s _ _ _ _).2 (writeReg_reserved idx _ s.codec h7)

/-- The six read-only indexes are those up to 0x06 without that of KEY_FILTER. -/
theorem readOnly_index : ∀ idx ∈ [0x00#8, 0x01#8, 0x02#8, 0x03#8, 0x05#8, 0x06#8], idx ≠ 0x04#8 ∧ idx.toNat ≤ 6 := by
  decide

end Sys2Proof.Machine

namespace Sys2Proof

open Machine Safety

/-- Settles O23: both operations leave the block, and the bytes that decode as illegal are the unassigned ones, which are
the six ranges. -/
theorem nopAndIllegalChangeNothing : Obligations.NopAndIllegalChangeNothing :=
  ⟨fun _ => rfl, fun s => exec_op .nop s rfl,
    fun op rest => (decodeOp_eq_illegal_iff op rest).trans (not_mem_assignedOpcodes_iff op),
    fun op s => exec_op (.illegal op) s rfl⟩

/-- Settles O24: each of the seven indexes names its register, and the indexes above name none. -/
theorem regReadReturnsTheRegister : Obligations.RegReadReturnsTheRegister :=
  ⟨fun _ _ => rfl, fun _ => ⟨exec_regRead_some rfl, exec_regRead_some rfl, exec_regRead_some rfl, exec_regRead_some rfl,
    exec_regRead_some rfl, exec_regRead_some rfl, exec_regRead_some rfl,
    fun idx h7 => exec_regRead_none (readReg_reserved idx _ (BitVec.le_def.1 h7))⟩⟩

/-- Settles O25: the index is that of KEY_FILTER, or a read-only one, or above the register file. -/
theorem regWriteReachesOnlyTheFilter : Obligations.RegWriteReachesOnlyTheFilter := by
  refine ⟨fun _ _ _ _ _ _ => rfl, fun s idx v3 v2 v1 v0 => ⟨fun hfilter => ?_, fun hro => ?_, fun h7 => ?_⟩⟩
  · subst hfilter
    exact exec_regWrite_keyFilter s v3 v2 v1 v0
  · obtain ⟨h4, h6⟩ := readOnly_index idx hro
    exact exec_regWrite_readOnly h4 h6 s v3 v2 v1 v0
  · exact exec_regWrite_reserved (BitVec.le_def.1 h7) s v3 v2 v1 v0

/-- Settles O28: CNT.CLEAR's effect on the block is `clearCounters`, which writes the four counters only. -/
theorem cntClearZeroesTheCounters : Obligations.CntClearZeroesTheCounters :=
  ⟨fun _ => rfl, fun s => exec_op .cntClear s rfl⟩

end Sys2Proof
end

section
/-! What waits decides whether a step goes on: a turn that brings nothing, and one that finds a partial operation
(30_encoding.md R79, 60_exceptions.md R210, R216, R226). -/

namespace Sys2Proof.Machine

open Sys2Proof.Safety

@[simp] theorem fetchPort_nil (after : List Byte → State) : fetchPort [] after = .quiet (after []) := rfl

@[simp] theorem fetchWire_nil (after : List Byte → State) : fetchWire [] after = .quiet (after []) := rfl

/-- A port whose bytes end inside the operation they begin delivers a refusal that names its opcode. -/
theorem fetchPort_of_lt_length {op : Byte} {xs : List Byte} (h : xs.length + 1 < opLength op)
    (after : List Byte → State) : fetchPort (op :: xs) after = .refuse (.truncatedOperation op) := by
  simp [fetchPort, decodeOp_of_lt_length h]

/-- The next turn is a port's, and what waits there is a part of the operation that `op` begins. -/
def TruncatedNext (s : State) (op : Byte) : Prop :=
  ∃ xs : List Byte, xs.length + 1 < opLength op ∧
    ((∃ ts, s.turns = .host :: ts ∧ s.hostIn = op :: xs) ∨ (∃ ts, s.turns = .link :: ts ∧ s.linkIn = op :: xs))

theorem TruncatedNext.step_eq {s : State} {op : Byte} (h : TruncatedNext s op) :
    step s = .refused (.truncatedOperation op) := by
  obtain ⟨xs, hlt, ⟨ts, ht, hb⟩ | ⟨ts, ht, hb⟩⟩ := h
  · simp only [step, fetch, ht, hb, fetchPort_of_lt_length hlt]
  · simp only [step, fetch, ht, hb, fetchPort_of_lt_length hlt]

theorem goesOn_of_exec {s u : State} {i : Instr} (he : step s = exec i u) : GoesOn s :=
  ⟨_, he.trans (exec_eq i u)⟩

/-- Every step goes on, but where a partial operation is next. -/
theorem goesOn_or_truncatedNext (s : State) : GoesOn s ∨ ∃ op, TruncatedNext s op := by
  obtain ⟨-, he⟩ | ⟨ts, -, he⟩ |
    ⟨ts, ht, ⟨-, he⟩ | ⟨i, rest, -, he⟩ | ⟨op, xs, hb, hlt, -⟩⟩ |
    ⟨ts, ht, ⟨-, he⟩ | ⟨i, rest, -, he⟩ | ⟨op, xs, hb, hlt, -⟩⟩ |
    ⟨ts, -, ⟨-, he⟩ | ⟨i, -, he⟩ | ⟨b, rest, e, -, -, he⟩⟩ := step_cases s
  · exact .inl ⟨_, he⟩
  · exact .inl ⟨_, he⟩
  · exact .inl ⟨_, he⟩
  · exact .inl (goesOn_of_exec he)
  · exact .inr ⟨op, xs, hlt, .inl ⟨ts, ht, hb⟩⟩
  · exact .inl ⟨_, he⟩
  · exact .inl (goesOn_of_exec he)
  · exact .inr ⟨op, xs, hlt, .inr ⟨ts, ht, hb⟩⟩
  · exact .inl ⟨_, he⟩
  · exact .inl (goesOn_of_exec he)
  · exact .inl (goesOn_of_exec he)

/-- A step refuses exactly where a partial operation is next, and by its name. -/
theorem step_eq_refused_iff (s : State) (r : Refusal) :
    step s = .refused r ↔ ∃ op, r = .truncatedOperation op ∧ TruncatedNext s op := by
  constructor
  · intro hr
    obtain ⟨t, ht⟩ | ⟨op, hop⟩ := goesOn_or_truncatedNext s
    · cases ht.symm.trans hr
    · cases hop.step_eq.symm.trans hr
      exact ⟨op, rfl, hop⟩
  · rintro ⟨op, rfl, hop⟩
    exact hop.step_eq

end Sys2Proof.Machine

namespace Sys2Proof

open Machine

/-- Settles O18: every instruction completes, so a step refuses only where a port holds a partial operation; and `Fault` has
no value, as the block has no trap. -/
theorem onlyTruncatedOperationsRefuse : Obligations.OnlyTruncatedOperationsRefuse := by
  refine fun s => ⟨nofun, fun r => (step_eq_refused_iff s r).trans ?_⟩
  simp only [TruncatedNext, exists_and_left]

/-- Settles O17: a port or wire with nothing waiting is quiet, and so is the reset input, which writes the block and the
results alone. -/
theorem quietTurnsHoldTheBlock : Obligations.QuietTurnsHoldTheBlock := by
  refine ⟨fun s ht => ?_, fun s ts hquiet => ?_, fun s ts ht => ?_⟩
  · simp only [step, fetch, ht]
  · obtain ⟨ht, hnil⟩ | ⟨ht, hnil⟩ | ⟨ht, hnil⟩ := hquiet
    all_goals
      simp only [step, fetch, ht, hnil, fetchPort_nil, fetchWire_nil]
      exact ⟨_, rfl, rfl, rfl, rfl, rfl, rfl, rfl⟩
  · exact ⟨{ s with turns := ts }.resetInput, by simp only [step, fetch, ht], rfl, rfl, rfl, rfl⟩

end Sys2Proof
end

section
/-! Who may issue an operation, and the statuses it may report (60_exceptions.md R211, R221). -/

namespace Sys2Proof.Machine

open Sys2Proof.Safety

theorem transmit_status (f : List Byte) (c : Codec) : (transmit f c).2.status ∈ [.ok, .eNotConnected] := by
  unfold transmit
  split <;> simp [report]

theorem completeFrame_status (c : Codec) (f : List Byte) : (completeFrame c f).2.status = .ok := by
  unfold completeFrame
  split <;> rfl

theorem decide9_status (c : Codec) (b : List Byte) : (decide9 c b).2.status = .ok := by
  unfold decide9
  split
  · rfl
  · split
    · rfl
    · exact completeFrame_status _ _
  · rfl

/-- RX.BYTE reports a down link, and on a live link nothing but OK. -/
theorem rxByteOp_status (b : Byte) (c : Codec) : (rxByteOp b c).2.status ∈ [.ok, .eNotConnected] := by
  unfold rxByteOp
  split
  · simp [report]
  · split
    · simp [report]
    · simp [decide9_status]

theorem rxResults_status (bs : List Byte) (c : Codec) :
    ∀ r ∈ rxResults c bs, r.status ∈ [.ok, .eNotConnected] := by
  induction bs generalizing c with
  | nil => exact List.forall_mem_nil _
  | cons b bs ih => exact List.forall_mem_cons.2 ⟨rxByteOp_status b c, ih _⟩

theorem frameCheck_mem (f : List Byte) : frameCheck f ∈ [.ok, .eBadStx, .eBadEtx, .eCrc] := by
  unfold frameCheck
  split_ifs <;> decide

theorem keydecResult_status (table : Byte → Option KeyIndex) (keyMod keySel : Byte) (p : Payload) :
    (keydecResult (keydec table keyMod keySel p)).status ∈ [.ok, .nNotKeypad, .nBadState, .nUnmapped] := by
  unfold keydec
  split_ifs
  · simp [keydecResult, report]
  · simp [keydecResult, report]
  · cases table p.d2 <;> simp [keydecResult, report]

theorem readResult_status (v : Option Word) : (readResult v).status ∈ [.ok, .eBadReg] := by
  cases v <;> simp [readResult, report]

theorem writeReg_status (idx : Byte) (v : Word) (c : Codec) :
    (writeReg idx v c).2.status ∈ [.ok, .eBadReg, .eRoReg] := by
  unfold writeReg
  split <;> simp [report]

/-- Every record of an instruction has a status that its entry lists. -/
theorem recordsOf_status (i : Instr) (c : Codec) : ∀ r ∈ recordsOf i c, r.status ∈ statusesOf i := by
  have single {r : Result} (h : r.status ∈ statusesOf i) : ∀ r' ∈ [r], r'.status ∈ statusesOf i :=
    List.forall_mem_singleton.2 h
  cases i
  case frameSetled | frameSetbuzzer | frameKeypadReport => exact rxResults_status _ c
  case rxByte b => exact single (rxByteOp_status b c)
  case setled | setbuz => exact single (transmit_status _ c)
  case dec => exact single ((decResult_status _).symm ▸ frameCheck_mem _)
  case keydec => exact single (keydecResult_status _ _ _ _)
  case regRead => exact single (readResult_status _)
  case regWrite => exact single (writeReg_status _ _ c)
  all_goals exact single List.mem_cons_self

end Sys2Proof.Machine

namespace Sys2Proof

open Machine Safety

/-- Settles O22: the codes are those that `Status.code` and `Event.code` write down, and every record of an instruction has
a status of its entry. -/
theorem statusesComeFromTheirOperations : Obligations.StatusesComeFromTheirOperations := by
  refine ⟨⟨rfl, rfl, rfl, rfl, rfl, rfl, rfl, rfl, rfl, rfl, rfl⟩, ⟨rfl, rfl, rfl, rfl⟩,
    fun i s => ⟨_, _, exec_eq i s, rfl, ?_⟩⟩
  rw [List.forall_mem_map]
  exact recordsOf_status i s.codec

/-- Settles O9: what an instruction does to the block, and the records it returns, are functions of the block alone; the
port says only where the records go. -/
theorem eitherPortMayIssueEveryOperation : Obligations.EitherPortMayIssueEveryOperation := fun i s _ =>
  ⟨_, _, recordsOf i s.codec, exec_eq i s, exec_eq i _, rfl, rfl, rfl⟩

end Sys2Proof
end

section
/-! The reset input as a turn (70_reset_and_hazards.md R240). -/

namespace Sys2Proof.Machine

/-- The reset turn of a step, whatever the block holds and whatever waits at the ports. -/
theorem step_eq_of_reset_turn {s : State} {ts : List Turn} (h : s.turns = .reset :: ts) :
    step s = .next { s with turns := ts }.resetInput := by
  simp only [step, fetch, h]

end Sys2Proof.Machine

namespace Sys2Proof

open Machine

/-- Settles O2: the reset turn puts `Codec.reset` in the place of the block, and `resetLeavesTheStatedValues` (O1) states the
values it holds. -/
theorem resetInputRestoresEveryElement : Obligations.ResetInputRestoresEveryElement := by
  intro s ts h
  refine ⟨{ s with turns := ts }.resetInput, step_eq_of_reset_turn h, State.resetInput_turns _, ?_⟩
  rw [State.resetInput_codec]
  exact resetLeavesTheStatedValues

end Sys2Proof
end
